-- ==== Sys2Proof/Word.lean ====
section
/-! DEFINITION. The bit vectors of the core: 32-bit words (00_scope.md R7, R12), bytes and
5-bit register indices (10_state.md R21). -/

namespace Sys2Proof

/-- A 32-bit word: a register, the program counter, an instruction word, an address while it is
computed (R7, R40). -/
abbrev Word := BitVec 32

/-- One byte of memory. -/
abbrev Byte := BitVec 8

/-- The index of a general register, a 5-bit field and so always 0 to 31 (R21, R276). -/
abbrev Reg := BitVec 5

end Sys2Proof
end

