-- ==== Sys2Proof/Config.lean ====
section
/-! DEFINITION. The configuration of a launch: the parameters of 00_scope.md R8, none of which has a
default in the spec. They stand in State as data, so that a claim about every state is a claim about
every launch (log 1). No value of the spec is left free: nothing is drawn (R9, R19). -/

namespace Sys2Proof

/-- Memory contents: address and byte pairs, addresses strictly rising, no entry equal to what an
unlisted address reads as (log 3). -/
abbrev Memory := List Host.Cell

/-- DESIGN CHOICE (log 3): what an address that is not listed reads as. Any total `IMAGE` on the
mapped region (R8, R43) can be written over this byte. -/
def unlistedByte : Byte := 0#8

/-- R8: the parameters that the host fixes before reset. Sizes and bounds are numbers, since
`DATA_LIMIT` and the end of the mapped region may be 2^32. -/
structure Launch where
  /-- `MEM_BASE`, the byte address of the first mapped word. -/
  memBase : Nat
  /-- `MEM_WORDS`, the number of mapped 32-bit words. -/
  memWords : Nat
  /-- `IMAGE`, the initial contents of the mapped region. -/
  image : Memory
  /-- `DATA_BASE`, the first byte of the data segment. -/
  dataBase : Nat
  /-- `DATA_LIMIT`, the first byte past the data segment. -/
  dataLimit : Nat
  /-- `PC_RESET`, the address of the first instruction fetched. -/
  pcReset : Word
  /-- `PC_MAX`, the configured upper bound of the PC. -/
  pcMax : Word
  /-- `SP_RESET`, the value x2 holds after reset. -/
  spReset : Word
  deriving DecidableEq, Repr

/-- DESIGN CHOICE (log 2): launch L0 of 95_test_vectors.md, with an image of zeros. The spec says these
values "are not defaults of the hardware". -/
def Launch.l0 : Launch where
  memBase := 0
  memWords := 1024
  image := []
  dataBase := 0
  dataLimit := 0x1000
  pcReset := 0x00000000#32
  pcMax := 0x00000FFC#32
  spReset := 0x00000000#32

end Sys2Proof
end

