-- ==== Sys2Proof/Machine/State.lean ====
section
/-! DEFINITION. The state of the core (10_state.md R20), the state after reset (R29), and why a step
can stop. -/

namespace Sys2Proof.Machine

/-- The run state (R27). `reset`, `running` and `halted` are the source's states. `faulted` is the
state after a fatal condition. -/
inductive RunState where
  | reset | running | halted | faulted
  deriving DecidableEq, Repr

/-- The three normal halts (R28, 41_execution_engine.md R137). -/
inductive HaltReason where
  | pcRange | sentinel | ecallHalt
  deriving DecidableEq, Repr

/-- The kinds of fatal condition (60_exceptions.md R270). Nothing raises `invalidRegisterIndex`
(R276). -/
inductive FatalKind where
  | decodeError | invalidRegisterIndex | unimplementedControlPath | fetchOutOfRange
  | fetchMisaligned | dataMisaligned | dataAccessOutOfRange
  deriving DecidableEq, Repr

/-- The stop reason (R28): in `halted` a halt reason, in `faulted` a fatal kind. -/
inductive StopReason where
  | halt (reason : HaltReason)
  | fatal (kind : FatalKind)
  deriving DecidableEq, Repr

/-- The state. `regs`, `pc`, `mem`, `run` and `stopReason` are the five things of R20. `launch` holds
the constants of the launch (R8, log 1) and `printRequests` counts an output event (R262, log 7). -/
structure State where
  launch : Launch
  regs : Vector Word 32
  pc : Word
  mem : Memory
  run : RunState
  stopReason : Option StopReason
  printRequests : Nat
  deriving DecidableEq, Repr

/-- A stop of the model, not of an instruction: no tick exists in a terminal run state
(41_execution_engine.md R130, R137, R138). -/
inductive Fault where
  /-- Raised by `step` in `halted`: "no further ticks execute". Safe: nothing is concluded of a next
  state (log 5). -/
  | halted
  /-- Raised by `step` in `faulted`, terminal likewise. Safe (log 5). -/
  | faulted
  deriving DecidableEq, Repr

/-- What the model has no meaning for. -/
inductive Refusal where
  /-- Raised by an arm of `exec` that has no meaning. No arm raises it. Safe. -/
  | notModelled (mnemonic : String)
  /-- Raised by `step` when the launch breaks a constraint of R8: "a model refuses it"
  (70_reset_and_hazards.md R302). Safe (log 6). -/
  | launchOutsideSpec
  deriving DecidableEq, Repr

/-- R29: x2 holds `SP_RESET`, every other register 0, x0 included. -/
def resetRegs (spReset : Word) : Vector Word 32 := (Vector.replicate 32 0#32).set 2 spReset

/-- The state of a launch once reset has been released (R29, R300). -/
def State.resetOf (l : Launch) : State where
  launch := l
  regs := resetRegs l.spReset
  pc := l.pcReset
  mem := l.image
  run := .running
  stopReason := none
  printRequests := 0

/-- The machine right after reset, for the launch of log 2. -/
def State.reset : State := State.resetOf Launch.l0

end Sys2Proof.Machine
end

