-- ==== Sys2Proof/Machine/Ops.lean ====
section
/-! DEFINITION. The named operations: the register ports, memory, the access primitives `Fetch`,
`MemRead` and `MemWrite` (20_memory.md R44 to R46), and the two ways a tick ends a run, `raise Fatal`
and `halt` (00_scope.md R15). -/

namespace Sys2Proof

/-! ### Memory by the byte -/

/-- Whether a memory is in its one form: addresses strictly rising, no entry equal to what an unlisted
address reads as. -/
def Memory.wf : Memory → Bool
  | [] => true
  | c :: m => c.2 != unlistedByte && m.all (fun d => decide (c.1 < d.1)) && Memory.wf m

/-- The byte at an address. -/
def Memory.read (m : Memory) (a : Nat) : Byte :=
  match m with
  | [] => unlistedByte
  | c :: m => if c.1 = a then c.2 else Memory.read m a

/-- The memory without an entry for an address. -/
def Memory.erase (m : Memory) (a : Nat) : Memory := m.filter (fun c => decide (c.1 ≠ a))

/-- The memory with an entry put before the first higher address. -/
def Memory.insert (m : Memory) (a : Nat) (b : Byte) : Memory :=
  match m with
  | [] => [(a, b)]
  | c :: m => if a < c.1 then (a, b) :: c :: m else c :: Memory.insert m a b

/-- Write one byte; writing what an unlisted address reads as leaves no entry. -/
def Memory.write (m : Memory) (a : Nat) (b : Byte) : Memory :=
  if b = unlistedByte then Memory.erase m a else Memory.insert (Memory.erase m a) a b

/-- The `n` bytes from `a` up, the lowest address least significant (R47). -/
def Memory.readLE (m : Memory) (a : Nat) : Nat → Word
  | 0 => 0#32
  | n + 1 => (m.readLE (a + 1) n <<< 8) ||| (m.read a).setWidth 32

/-- Write the low `n` bytes of `v` from `a` up, the least significant lowest (R47). -/
def Memory.writeLE (m : Memory) (a : Nat) (n : Nat) (v : Word) : Memory :=
  match n with
  | 0 => m
  | n + 1 => (m.write a (v.setWidth 8)).writeLE (a + 1) n (v >>> 8)

/-- `M[a]`, the word at a word-aligned address (R41). -/
def Memory.word (m : Memory) (a : Nat) : Word := m.readLE a 4

/-! ### The map and the launch's constraints -/

/-- `Mapped(a)` (R41). -/
def Launch.mapped (l : Launch) (a : Nat) : Bool :=
  decide (l.memBase ≤ a) && decide (a + 3 < l.memBase + 4 * l.memWords)

/-- `InData(a)` (R41). -/
def Launch.inData (l : Launch) (a : Nat) : Bool :=
  decide (l.dataBase ≤ a) && decide (a + 3 < l.dataLimit)

/-- Whether a byte address lies in the mapped region. -/
def Launch.mappedByte (l : Launch) (a : Nat) : Bool :=
  decide (l.memBase ≤ a) && decide (a < l.memBase + 4 * l.memWords)

/-- The constraints a launch must meet (R8, 70_reset_and_hazards.md R302); of the image, that it is a
memory of the mapped region (log 6). -/
def Launch.ok (l : Launch) : Bool :=
  decide (l.memBase % 4 = 0) && decide (l.memBase + 4 * l.memWords ≤ 2 ^ 32) &&
  decide (l.dataBase % 4 = 0) && decide (l.dataLimit % 4 = 0) &&
  decide (l.memBase ≤ l.dataBase) && decide (l.dataBase ≤ l.dataLimit) &&
  decide (l.dataLimit ≤ l.memBase + 4 * l.memWords) &&
  decide (l.pcReset.toNat % 4 = 0) &&
  l.image.wf && l.image.all (fun c => l.mappedByte c.1)

namespace Machine

/-! ### The register ports and the other updates -/

/-- `x[i]`: register 0 reads as zero always (10_state.md R21, R23). -/
def State.reg (s : State) (i : Reg) : Word :=
  if i = 0#5 then 0#32 else s.regs[i.toNat]'i.isLt

/-- `x[i] <- v`: a write of register 0 is discarded (R22, R23). -/
def State.setReg (s : State) (i : Reg) (v : Word) : State :=
  { s with regs := if i = 0#5 then s.regs else s.regs.set i.toNat v i.isLt }

/-- `pc <- t` (R25). -/
def State.setPc (s : State) (t : Word) : State := { s with pc := t }

/-- The memory after a store (R46). -/
def State.setMem (s : State) (m : Memory) : State := { s with mem := m }

/-- The end of a run (R27, R28). -/
def State.stopAs (s : State) (r : RunState) (reason : StopReason) : State :=
  { s with run := r, stopReason := some reason }

/-- The print request, an output event (48_system.md R262, log 7). -/
def State.requestPrint (s : State) : State := { s with printRequests := s.printRequests + 1 }

/-- What a tick of this machine answers. -/
abbrev Result := Host.Outcome State Fault Refusal

/-! ### The ends of a run -/

/-- `raise Fatal(kind)` (60_exceptions.md R271, 41_execution_engine.md R138): the tick's writes are
cancelled, `pc` keeps the address of the stopping instruction, `run` is FAULTED and `stop_reason` the
kind. There is no handler, no saved state, and no return (R279, R280). -/
def raiseFatal (k : FatalKind) (s : State) : Result := .next (s.stopAs .faulted (.fatal k))

/-- `halt(reason)` (R137): `run` is HALTED, `pc` keeps its value. -/
def halt (r : HaltReason) (s : State) : Result := .next (s.stopAs .halted (.halt r))

/-! ### The access primitives -/

/-- The width of a data access (R48). -/
inductive Width where
  | byte | half | word
  deriving DecidableEq, Repr

/-- The number of bytes of an access (R48). -/
def Width.bytes : Width → Nat
  | .byte => 1
  | .half => 2
  | .word => 4

/-- The address of the word that contains a byte, `{a[31:2], 0b00}` (R45). -/
def wordAddr (a : Word) : Nat := a.toNat / 4 * 4

/-- `Fetch(a)` (R44): alignment first, then the map. -/
def fetch (s : State) (a : Word) : Except FatalKind Word :=
  if a.toNat % 4 ≠ 0 then .error .fetchMisaligned
  else if s.launch.mapped a.toNat then .ok (s.mem.word a.toNat)
  else .error .fetchOutOfRange

/-- The checks of a data access, in order (R45, R46): alignment, then the data segment. -/
def dataCheck (s : State) (a : Word) (n : Width) : Except FatalKind Unit :=
  if a.toNat % n.bytes ≠ 0 then .error .dataMisaligned
  else if s.launch.inData (wordAddr a) then .ok ()
  else .error .dataAccessOutOfRange

/-- `MemRead(a, n)` (R45); the value stands in the low `8n` bits. -/
def memRead (s : State) (a : Word) (n : Width) : Except FatalKind Word :=
  match dataCheck s a n with
  | .ok _ => .ok (s.mem.readLE a.toNat n.bytes)
  | .error k => .error k

/-- `MemWrite(a, n, v)` (R46): the memory after the scheduled write of the low `8n` bits of `v`. -/
def memWrite (s : State) (a : Word) (n : Width) (v : Word) : Except FatalKind Memory :=
  match dataCheck s a n with
  | .ok _ => .ok (s.mem.writeLE a.toNat n.bytes v)
  | .error k => .error k

/-! ### Endings of an instruction -/

/-- `pc + 4` modulo 2^32 (10_state.md R26). -/
def nextPc (s : State) : Word := s.pc + 4#32

/-- Write `rd` and go on in sequence (41_execution_engine.md R139). -/
def writeBack (rd : Reg) (v : Word) (s : State) : Result := .next ((s.setReg rd v).setPc (nextPc s))

end Machine

end Sys2Proof
end

