-- ==== Sys2Proof/Machine/Flags.lean ====
section
/-! DEFINITION. The branch condition unit (40_datapath_units.md R120, R121). The hardware has no flags
and no condition codes (10_state.md R32): the unit's three outputs are values of one tick and are not
kept. -/

namespace Sys2Proof.Machine

/-- The outputs of the unit (R120). -/
structure Relations where
  equal : Bool
  lessThanSigned : Bool
  lessThanUnsigned : Bool
  deriving DecidableEq, Repr

/-- `evaluate(rs1_val, rs2_val)` (R120). -/
def relations (a b : Word) : Relations where
  equal := a == b
  lessThanSigned := decide (a.toInt < b.toInt)
  lessThanUnsigned := decide (a.toNat < b.toNat)

end Sys2Proof.Machine
end

