-- ==== Sys2Proof/Syntax.lean ====
section
/-! DEFINITION. The instructions: one constructor for each row of 30_encoding.md R75, in the table's
order, operands in the assembler's order (R82). Immediates are the raw fields of the layouts (R63); a
branch or jump offset carries its bit 0, which WellFormed requires to be 0 (R70, R71). -/

namespace Sys2Proof

/-- The 38 instructions of the subset (R2, R75). -/
inductive Instr where
  /-- LB: load byte, sign-extended (R161). -/
  | lb (rd rs1 : Reg) (imm : BitVec 12)
  /-- LH: load halfword, sign-extended (R162). -/
  | lh (rd rs1 : Reg) (imm : BitVec 12)
  /-- LW: load word (R163). -/
  | lw (rd rs1 : Reg) (imm : BitVec 12)
  /-- LBU: load byte, zero-extended (R164). -/
  | lbu (rd rs1 : Reg) (imm : BitVec 12)
  /-- LHU: load halfword, zero-extended (R165). -/
  | lhu (rd rs1 : Reg) (imm : BitVec 12)
  /-- SB: store byte (R167). -/
  | sb (rs2 rs1 : Reg) (imm : BitVec 12)
  /-- SH: store halfword (R168). -/
  | sh (rs2 rs1 : Reg) (imm : BitVec 12)
  /-- SW: store word (R169). -/
  | sw (rs2 rs1 : Reg) (imm : BitVec 12)
  /-- ADDI: add immediate (R181). -/
  | addi (rd rs1 : Reg) (imm : BitVec 12)
  /-- SLTI: set if less than immediate, signed (R182). -/
  | slti (rd rs1 : Reg) (imm : BitVec 12)
  /-- SLTIU: set if less than immediate, unsigned (R183). -/
  | sltiu (rd rs1 : Reg) (imm : BitVec 12)
  /-- XORI: exclusive OR with immediate (R184). -/
  | xori (rd rs1 : Reg) (imm : BitVec 12)
  /-- ORI: OR with immediate (R185). -/
  | ori (rd rs1 : Reg) (imm : BitVec 12)
  /-- ANDI: AND with immediate (R186). -/
  | andi (rd rs1 : Reg) (imm : BitVec 12)
  /-- SLLI: shift left logical by immediate (R187), the amount in `word[24:20]` (log 12). -/
  | slli (rd rs1 : Reg) (shamt : BitVec 5)
  /-- SRLI: shift right logical by immediate (R188). -/
  | srli (rd rs1 : Reg) (shamt : BitVec 5)
  /-- SRAI: shift right arithmetic by immediate (R189). -/
  | srai (rd rs1 : Reg) (shamt : BitVec 5)
  /-- ADD: add (R201). -/
  | add (rd rs1 rs2 : Reg)
  /-- SUB: subtract (R202). -/
  | sub (rd rs1 rs2 : Reg)
  /-- SLL: shift left logical (R203). -/
  | sll (rd rs1 rs2 : Reg)
  /-- SLT: set if less than, signed (R204). -/
  | slt (rd rs1 rs2 : Reg)
  /-- SLTU: set if less than, unsigned (R205). -/
  | sltu (rd rs1 rs2 : Reg)
  /-- XOR: exclusive OR (R206). -/
  | xor (rd rs1 rs2 : Reg)
  /-- SRL: shift right logical (R207). -/
  | srl (rd rs1 rs2 : Reg)
  /-- SRA: shift right arithmetic (R208). -/
  | sra (rd rs1 rs2 : Reg)
  /-- OR: OR (R209). -/
  | or (rd rs1 rs2 : Reg)
  /-- AND: AND (R210). -/
  | and (rd rs1 rs2 : Reg)
  /-- BEQ: branch if equal (R221). -/
  | beq (rs1 rs2 : Reg) (offset : BitVec 13)
  /-- BNE: branch if not equal (R222). -/
  | bne (rs1 rs2 : Reg) (offset : BitVec 13)
  /-- BLT: branch if less than, signed (R223). -/
  | blt (rs1 rs2 : Reg) (offset : BitVec 13)
  /-- BGE: branch if greater or equal, signed (R224). -/
  | bge (rs1 rs2 : Reg) (offset : BitVec 13)
  /-- BLTU: branch if less than, unsigned (R225). -/
  | bltu (rs1 rs2 : Reg) (offset : BitVec 13)
  /-- BGEU: branch if greater or equal, unsigned (R226). -/
  | bgeu (rs1 rs2 : Reg) (offset : BitVec 13)
  /-- JAL: jump and link (R241). -/
  | jal (rd : Reg) (offset : BitVec 21)
  /-- JALR: jump and link register: decodes, then is fatal (R242). -/
  | jalr (rd rs1 : Reg) (imm : BitVec 12)
  /-- LUI: load upper immediate (R251). -/
  | lui (rd : Reg) (imm20 : BitVec 20)
  /-- AUIPC: add upper immediate to PC (R252). -/
  | auipc (rd : Reg) (imm20 : BitVec 20)
  /-- ECALL: the halt and print trigger (R261); its three fields are extracted and not examined (R80). -/
  | ecall (rd rs1 : Reg) (imm : BitVec 12)
  deriving DecidableEq, Repr

end Sys2Proof
end

