-- ==== Sys2Proof/WellFormed.lean ====
section
/-! DEFINITION. The instructions an encoding exists for. Every operand field is exactly as wide as its
field of the word, so one check remains: bit 0 of a branch or jump offset is always 0
(30_encoding.md R70, R71). -/

namespace Sys2Proof

/-- R70: "bit 0 of the immediate is always 0". -/
def branchOffsetOk (offset : BitVec 13) : Bool := !offset.getLsbD 0

/-- R71: "bit 0 is always 0". -/
def jumpOffsetOk (offset : BitVec 21) : Bool := !offset.getLsbD 0

/-- Whether an instruction has an encoding. -/
def Instr.wf : Instr → Bool
  | .lb _ _ _ | .lh _ _ _ | .lw _ _ _ | .lbu _ _ _ | .lhu _ _ _ => true
  | .sb _ _ _ | .sh _ _ _ | .sw _ _ _ => true
  | .addi _ _ _ | .slti _ _ _ | .sltiu _ _ _ | .xori _ _ _ | .ori _ _ _ | .andi _ _ _ => true
  | .slli _ _ _ | .srli _ _ _ | .srai _ _ _ => true
  | .add _ _ _ | .sub _ _ _ | .sll _ _ _ | .slt _ _ _ | .sltu _ _ _ => true
  | .xor _ _ _ | .srl _ _ _ | .sra _ _ _ | .or _ _ _ | .and _ _ _ => true
  | .beq _ _ offset | .bne _ _ offset | .blt _ _ offset => branchOffsetOk offset
  | .bge _ _ offset | .bltu _ _ offset | .bgeu _ _ offset => branchOffsetOk offset
  | .jal _ offset => jumpOffsetOk offset
  | .jalr _ _ _ | .lui _ _ | .auipc _ _ | .ecall _ _ _ => true

end Sys2Proof
end

