-- ==== Sys2Proof/Decode.lean ====
section
/-! DEFINITION. The instruction word (30_encoding.md): its fields (R62, R63), the five immediate
generators (R65 to R71), the instruction table (R75), the decoder as "the one row of R75 with
word & mask == match" (R74), the encoder, and the decoded record by the narrowing algorithm (R60, R64,
R72). The decoder is a function of the word alone and keeps nothing between ticks (R77). -/

namespace Sys2Proof

/-! ### Fields (R62) -/

/-- `word[6:0]`. -/
def opcodeOf (w : Word) : BitVec 7 := w.extractLsb' 0 7
/-- `word[11:7]`. -/
def rdOf (w : Word) : Reg := w.extractLsb' 7 5
/-- `word[14:12]`. -/
def funct3Of (w : Word) : BitVec 3 := w.extractLsb' 12 3
/-- `word[19:15]`. -/
def rs1Of (w : Word) : Reg := w.extractLsb' 15 5
/-- `word[24:20]`. -/
def rs2Of (w : Word) : Reg := w.extractLsb' 20 5
/-- `word[31:25]`. -/
def funct7Of (w : Word) : BitVec 7 := w.extractLsb' 25 7
/-- The shift amount of SLLI, SRLI, SRAI, `word[24:20]` (R69). -/
def shamtOf (w : Word) : BitVec 5 := w.extractLsb' 20 5

/-- A field put at bit `k` of a vector of `n` bits: how `{..., v, ...}` (00_scope.md R12) is built here,
the pieces joined by OR. -/
def placeAt (n k : Nat) {m : Nat} (v : BitVec m) : BitVec n := v.setWidth n <<< k

/-! ### Immediate generators -/

/-- `sext_N(v)` (00_scope.md R14). -/
def sext {n : Nat} (v : BitVec n) : Word := v.signExtend 32

/-- `zext_N(v)` (R14). -/
def zext {n : Nat} (v : BitVec n) : Word := v.setWidth 32

/-- The I-type field, `word[31:20]` (R66). -/
def immIField (w : Word) : BitVec 12 := w.extractLsb' 20 12

/-- The S-type field, `{word[31:25], word[11:7]}` (R67). -/
def immSField (w : Word) : BitVec 12 :=
  placeAt 12 5 (w.extractLsb' 25 7) ||| placeAt 12 0 (w.extractLsb' 7 5)

/-- The U-type field, `word[31:12]` (R68). -/
def immUField (w : Word) : BitVec 20 := w.extractLsb' 12 20

/-- The SB-type field, `{word[31], word[7], word[30:25], word[11:8], 0b0}` (R70). -/
def immSBField (w : Word) : BitVec 13 :=
  placeAt 13 12 (w.extractLsb' 31 1) ||| placeAt 13 11 (w.extractLsb' 7 1) |||
    placeAt 13 5 (w.extractLsb' 25 6) ||| placeAt 13 1 (w.extractLsb' 8 4)

/-- The UJ-type field, `{word[31], word[19:12], word[20], word[30:21], 0b0}` (R71). -/
def immUJField (w : Word) : BitVec 21 :=
  placeAt 21 20 (w.extractLsb' 31 1) ||| placeAt 21 12 (w.extractLsb' 12 8) |||
    placeAt 21 11 (w.extractLsb' 20 1) ||| placeAt 21 1 (w.extractLsb' 21 10)

/-- `imm_i` (R66). -/
def immI (w : Word) : Word := sext (immIField w)
/-- `imm_s` (R67). -/
def immS (w : Word) : Word := sext (immSField w)
/-- `imm_u`, the field unshifted and sign-extended (R68, conflict C5). -/
def immU (w : Word) : Word := sext (immUField w)
/-- `imm_sb` (R70). -/
def immSB (w : Word) : Word := sext (immSBField w)
/-- `imm_uj` (R71). -/
def immUJ (w : Word) : Word := sext (immUJField w)
/-- `br_target = pc + imm_sb` modulo 2^32 (R70). -/
def brTarget (w pc : Word) : Word := pc + immSB w
/-- `jmp_target = pc + imm_uj` modulo 2^32 (R71). -/
def jmpTarget (w pc : Word) : Word := pc + immUJ w

/-! ### The instruction table (R75) -/

/-- The mnemonics, the "fixed instruction set" of the record's tag (R60), in the order of R75 (R74). -/
inductive Mnemonic where
  | lb | lh | lw | lbu | lhu
  | sb | sh | sw
  | addi | slti | sltiu | xori | ori | andi | slli | srli | srai
  | add | sub | sll | slt | sltu | xor | srl | sra | or | and
  | beq | bne | blt | bge | bltu | bgeu
  | jal | jalr | lui | auipc | ecall
  deriving DecidableEq, Repr

/-- The six encoding types (R60, R76). -/
inductive EncodingType where
  | r | i | s | u | sb | uj
  deriving DecidableEq, Repr

/-- A row of R75: the discriminators a mnemonic requires (R73), and the same as match and mask. -/
structure TableRow where
  mnemonic : Mnemonic
  type : EncodingType
  opcode : BitVec 7
  funct3 : Option (BitVec 3)
  funct7 : Option (BitVec 7)
  matchWord : Word
  maskWord : Word
  deriving DecidableEq, Repr

/-- R75: loads. -/
def loadRows : List TableRow :=
  [⟨.lb, .i, 0b0000011#7, (some 0b000#3), none, 0x00000003#32, 0x0000707F#32⟩,
   ⟨.lh, .i, 0b0000011#7, (some 0b001#3), none, 0x00001003#32, 0x0000707F#32⟩,
   ⟨.lw, .i, 0b0000011#7, (some 0b010#3), none, 0x00002003#32, 0x0000707F#32⟩,
   ⟨.lbu, .i, 0b0000011#7, (some 0b100#3), none, 0x00004003#32, 0x0000707F#32⟩,
   ⟨.lhu, .i, 0b0000011#7, (some 0b101#3), none, 0x00005003#32, 0x0000707F#32⟩]

/-- R75: stores. -/
def storeRows : List TableRow :=
  [⟨.sb, .s, 0b0100011#7, (some 0b000#3), none, 0x00000023#32, 0x0000707F#32⟩,
   ⟨.sh, .s, 0b0100011#7, (some 0b001#3), none, 0x00001023#32, 0x0000707F#32⟩,
   ⟨.sw, .s, 0b0100011#7, (some 0b010#3), none, 0x00002023#32, 0x0000707F#32⟩]

/-- R75: immediate arithmetic and logic. -/
def opImmRows : List TableRow :=
  [⟨.addi, .i, 0b0010011#7, (some 0b000#3), none, 0x00000013#32, 0x0000707F#32⟩,
   ⟨.slti, .i, 0b0010011#7, (some 0b010#3), none, 0x00002013#32, 0x0000707F#32⟩,
   ⟨.sltiu, .i, 0b0010011#7, (some 0b011#3), none, 0x00003013#32, 0x0000707F#32⟩,
   ⟨.xori, .i, 0b0010011#7, (some 0b100#3), none, 0x00004013#32, 0x0000707F#32⟩,
   ⟨.ori, .i, 0b0010011#7, (some 0b110#3), none, 0x00006013#32, 0x0000707F#32⟩,
   ⟨.andi, .i, 0b0010011#7, (some 0b111#3), none, 0x00007013#32, 0x0000707F#32⟩,
   ⟨.slli, .i, 0b0010011#7, (some 0b001#3), (some 0b0000000#7), 0x00001013#32, 0xFE00707F#32⟩,
   ⟨.srli, .i, 0b0010011#7, (some 0b101#3), (some 0b0000000#7), 0x00005013#32, 0xFE00707F#32⟩,
   ⟨.srai, .i, 0b0010011#7, (some 0b101#3), (some 0b0100000#7), 0x40005013#32, 0xFE00707F#32⟩]

/-- R75: register arithmetic and logic. -/
def opRegRows : List TableRow :=
  [⟨.add, .r, 0b0110011#7, (some 0b000#3), (some 0b0000000#7), 0x00000033#32, 0xFE00707F#32⟩,
   ⟨.sub, .r, 0b0110011#7, (some 0b000#3), (some 0b0100000#7), 0x40000033#32, 0xFE00707F#32⟩,
   ⟨.sll, .r, 0b0110011#7, (some 0b001#3), (some 0b0000000#7), 0x00001033#32, 0xFE00707F#32⟩,
   ⟨.slt, .r, 0b0110011#7, (some 0b010#3), (some 0b0000000#7), 0x00002033#32, 0xFE00707F#32⟩,
   ⟨.sltu, .r, 0b0110011#7, (some 0b011#3), (some 0b0000000#7), 0x00003033#32, 0xFE00707F#32⟩,
   ⟨.xor, .r, 0b0110011#7, (some 0b100#3), (some 0b0000000#7), 0x00004033#32, 0xFE00707F#32⟩,
   ⟨.srl, .r, 0b0110011#7, (some 0b101#3), (some 0b0000000#7), 0x00005033#32, 0xFE00707F#32⟩,
   ⟨.sra, .r, 0b0110011#7, (some 0b101#3), (some 0b0100000#7), 0x40005033#32, 0xFE00707F#32⟩,
   ⟨.or, .r, 0b0110011#7, (some 0b110#3), (some 0b0000000#7), 0x00006033#32, 0xFE00707F#32⟩,
   ⟨.and, .r, 0b0110011#7, (some 0b111#3), (some 0b0000000#7), 0x00007033#32, 0xFE00707F#32⟩]

/-- R75: branches. -/
def branchRows : List TableRow :=
  [⟨.beq, .sb, 0b1100011#7, (some 0b000#3), none, 0x00000063#32, 0x0000707F#32⟩,
   ⟨.bne, .sb, 0b1100011#7, (some 0b001#3), none, 0x00001063#32, 0x0000707F#32⟩,
   ⟨.blt, .sb, 0b1100011#7, (some 0b100#3), none, 0x00004063#32, 0x0000707F#32⟩,
   ⟨.bge, .sb, 0b1100011#7, (some 0b101#3), none, 0x00005063#32, 0x0000707F#32⟩,
   ⟨.bltu, .sb, 0b1100011#7, (some 0b110#3), none, 0x00006063#32, 0x0000707F#32⟩,
   ⟨.bgeu, .sb, 0b1100011#7, (some 0b111#3), none, 0x00007063#32, 0x0000707F#32⟩]

/-- R75: jumps, upper immediate, system. -/
def otherRows : List TableRow :=
  [⟨.jal, .uj, 0b1101111#7, none, none, 0x0000006F#32, 0x0000007F#32⟩,
   ⟨.jalr, .i, 0b1100111#7, (some 0b000#3), none, 0x00000067#32, 0x0000707F#32⟩,
   ⟨.lui, .u, 0b0110111#7, none, none, 0x00000037#32, 0x0000007F#32⟩,
   ⟨.auipc, .u, 0b0010111#7, none, none, 0x00000017#32, 0x0000007F#32⟩,
   ⟨.ecall, .i, 0b1110011#7, (some 0b000#3), none, 0x00000073#32, 0x0000707F#32⟩]

/-- R75: the 38 rows. -/
def instructionTable : List TableRow :=
  loadRows ++ storeRows ++ opImmRows ++ opRegRows ++ branchRows ++ otherRows

/-! ### The decoder -/

/-- Why a word is not an instruction: "no mnemonic matches" (R72, R79). -/
inductive DecodeError where
  | unresolved
  deriving DecidableEq, Repr

/-- Whether the discriminators of a row hold of a word; a discriminator the mnemonic does not require
is not looked at (R73, R75). -/
def TableRow.accepts (row : TableRow) (w : Word) : Bool :=
  opcodeOf w == row.opcode && row.funct3.all (funct3Of w == ·) && row.funct7.all (funct7Of w == ·)

/-- The mnemonic of a word: the first row that accepts it, in the table's order (R74). -/
def lookupMnemonic (w : Word) : Option Mnemonic :=
  (instructionTable.find? (·.accepts w)).map (·.mnemonic)

/-- The operands of a word, for its mnemonic (R63, R64). -/
def operandsOf (m : Mnemonic) (w : Word) : Instr :=
  match m with
  | .lb => .lb (rdOf w) (rs1Of w) (immIField w)
  | .lh => .lh (rdOf w) (rs1Of w) (immIField w)
  | .lw => .lw (rdOf w) (rs1Of w) (immIField w)
  | .lbu => .lbu (rdOf w) (rs1Of w) (immIField w)
  | .lhu => .lhu (rdOf w) (rs1Of w) (immIField w)
  | .sb => .sb (rs2Of w) (rs1Of w) (immSField w)
  | .sh => .sh (rs2Of w) (rs1Of w) (immSField w)
  | .sw => .sw (rs2Of w) (rs1Of w) (immSField w)
  | .addi => .addi (rdOf w) (rs1Of w) (immIField w)
  | .slti => .slti (rdOf w) (rs1Of w) (immIField w)
  | .sltiu => .sltiu (rdOf w) (rs1Of w) (immIField w)
  | .xori => .xori (rdOf w) (rs1Of w) (immIField w)
  | .ori => .ori (rdOf w) (rs1Of w) (immIField w)
  | .andi => .andi (rdOf w) (rs1Of w) (immIField w)
  | .slli => .slli (rdOf w) (rs1Of w) (shamtOf w)
  | .srli => .srli (rdOf w) (rs1Of w) (shamtOf w)
  | .srai => .srai (rdOf w) (rs1Of w) (shamtOf w)
  | .add => .add (rdOf w) (rs1Of w) (rs2Of w)
  | .sub => .sub (rdOf w) (rs1Of w) (rs2Of w)
  | .sll => .sll (rdOf w) (rs1Of w) (rs2Of w)
  | .slt => .slt (rdOf w) (rs1Of w) (rs2Of w)
  | .sltu => .sltu (rdOf w) (rs1Of w) (rs2Of w)
  | .xor => .xor (rdOf w) (rs1Of w) (rs2Of w)
  | .srl => .srl (rdOf w) (rs1Of w) (rs2Of w)
  | .sra => .sra (rdOf w) (rs1Of w) (rs2Of w)
  | .or => .or (rdOf w) (rs1Of w) (rs2Of w)
  | .and => .and (rdOf w) (rs1Of w) (rs2Of w)
  | .beq => .beq (rs1Of w) (rs2Of w) (immSBField w)
  | .bne => .bne (rs1Of w) (rs2Of w) (immSBField w)
  | .blt => .blt (rs1Of w) (rs2Of w) (immSBField w)
  | .bge => .bge (rs1Of w) (rs2Of w) (immSBField w)
  | .bltu => .bltu (rs1Of w) (rs2Of w) (immSBField w)
  | .bgeu => .bgeu (rs1Of w) (rs2Of w) (immSBField w)
  | .jal => .jal (rdOf w) (immUJField w)
  | .jalr => .jalr (rdOf w) (rs1Of w) (immIField w)
  | .lui => .lui (rdOf w) (immUField w)
  | .auipc => .auipc (rdOf w) (immUField w)
  | .ecall => .ecall (rdOf w) (rs1Of w) (immIField w)

/-- The decoder: total, an instruction or the decode error (R72, R74, R79). -/
def decode (w : Word) : Except DecodeError Instr :=
  match lookupMnemonic w with
  | some m => .ok (operandsOf m w)
  | none => .error .unresolved

/-- The instruction word whose low bits are the number `w` of the opcode table's `nbits` bits: every
instruction is one 32-bit word, bit 0 the least significant bit of the stored word (R47, R61). -/
def tableWord (nbits w : Nat) : Word := BitVec.ofNat 32 (w % 2 ^ nbits)

/-- What the decoder reads from an instruction whose bits are `w`, numbered as the table numbers them. -/
def decodeTableWord (nbits w : Nat) : Option Instr := (decode (tableWord nbits w)).toOption

/-! ### The encoder (R63) -/

/-- R-type, and the shift-immediate layout with the shift amount in the place of `rs2`. -/
def encodeR (funct7 : BitVec 7) (rs2 rs1 : Reg) (funct3 : BitVec 3) (rd : Reg) (op : BitVec 7) : Word :=
  placeAt 32 25 funct7 ||| placeAt 32 20 rs2 ||| placeAt 32 15 rs1 ||| placeAt 32 12 funct3 |||
    placeAt 32 7 rd ||| placeAt 32 0 op

/-- I-type. -/
def encodeI (imm : BitVec 12) (rs1 : Reg) (funct3 : BitVec 3) (rd : Reg) (op : BitVec 7) : Word :=
  placeAt 32 20 imm ||| placeAt 32 15 rs1 ||| placeAt 32 12 funct3 ||| placeAt 32 7 rd |||
    placeAt 32 0 op

/-- S-type: `imm[11:5]` above, `imm[4:0]` in the place of `rd`. -/
def encodeS (imm : BitVec 12) (rs2 rs1 : Reg) (funct3 : BitVec 3) (op : BitVec 7) : Word :=
  placeAt 32 25 (imm.extractLsb' 5 7) ||| placeAt 32 20 rs2 ||| placeAt 32 15 rs1 |||
    placeAt 32 12 funct3 ||| placeAt 32 7 (imm.extractLsb' 0 5) ||| placeAt 32 0 op

/-- SB-type: `imm[12], imm[10:5]` above, `imm[4:1], imm[11]` in the place of `rd`. -/
def encodeSB (offset : BitVec 13) (rs2 rs1 : Reg) (funct3 : BitVec 3) (op : BitVec 7) : Word :=
  placeAt 32 31 (offset.extractLsb' 12 1) ||| placeAt 32 25 (offset.extractLsb' 5 6) |||
    placeAt 32 20 rs2 ||| placeAt 32 15 rs1 ||| placeAt 32 12 funct3 |||
    placeAt 32 8 (offset.extractLsb' 1 4) ||| placeAt 32 7 (offset.extractLsb' 11 1) |||
    placeAt 32 0 op

/-- U-type. -/
def encodeU (imm20 : BitVec 20) (rd : Reg) (op : BitVec 7) : Word :=
  placeAt 32 12 imm20 ||| placeAt 32 7 rd ||| placeAt 32 0 op

/-- UJ-type: `imm[20], imm[10:1], imm[11], imm[19:12]`. -/
def encodeUJ (offset : BitVec 21) (rd : Reg) (op : BitVec 7) : Word :=
  placeAt 32 31 (offset.extractLsb' 20 1) ||| placeAt 32 21 (offset.extractLsb' 1 10) |||
    placeAt 32 20 (offset.extractLsb' 11 1) ||| placeAt 32 12 (offset.extractLsb' 12 8) |||
    placeAt 32 7 rd ||| placeAt 32 0 op

/-- The word of an instruction, from the layouts of R63 and the numerals of R75. -/
def encode : Instr → Word
  | .lb rd rs1 imm => encodeI imm rs1 0b000#3 rd 0b0000011#7
  | .lh rd rs1 imm => encodeI imm rs1 0b001#3 rd 0b0000011#7
  | .lw rd rs1 imm => encodeI imm rs1 0b010#3 rd 0b0000011#7
  | .lbu rd rs1 imm => encodeI imm rs1 0b100#3 rd 0b0000011#7
  | .lhu rd rs1 imm => encodeI imm rs1 0b101#3 rd 0b0000011#7
  | .sb rs2 rs1 imm => encodeS imm rs2 rs1 0b000#3 0b0100011#7
  | .sh rs2 rs1 imm => encodeS imm rs2 rs1 0b001#3 0b0100011#7
  | .sw rs2 rs1 imm => encodeS imm rs2 rs1 0b010#3 0b0100011#7
  | .addi rd rs1 imm => encodeI imm rs1 0b000#3 rd 0b0010011#7
  | .slti rd rs1 imm => encodeI imm rs1 0b010#3 rd 0b0010011#7
  | .sltiu rd rs1 imm => encodeI imm rs1 0b011#3 rd 0b0010011#7
  | .xori rd rs1 imm => encodeI imm rs1 0b100#3 rd 0b0010011#7
  | .ori rd rs1 imm => encodeI imm rs1 0b110#3 rd 0b0010011#7
  | .andi rd rs1 imm => encodeI imm rs1 0b111#3 rd 0b0010011#7
  | .slli rd rs1 shamt => encodeR 0b0000000#7 shamt rs1 0b001#3 rd 0b0010011#7
  | .srli rd rs1 shamt => encodeR 0b0000000#7 shamt rs1 0b101#3 rd 0b0010011#7
  | .srai rd rs1 shamt => encodeR 0b0100000#7 shamt rs1 0b101#3 rd 0b0010011#7
  | .add rd rs1 rs2 => encodeR 0b0000000#7 rs2 rs1 0b000#3 rd 0b0110011#7
  | .sub rd rs1 rs2 => encodeR 0b0100000#7 rs2 rs1 0b000#3 rd 0b0110011#7
  | .sll rd rs1 rs2 => encodeR 0b0000000#7 rs2 rs1 0b001#3 rd 0b0110011#7
  | .slt rd rs1 rs2 => encodeR 0b0000000#7 rs2 rs1 0b010#3 rd 0b0110011#7
  | .sltu rd rs1 rs2 => encodeR 0b0000000#7 rs2 rs1 0b011#3 rd 0b0110011#7
  | .xor rd rs1 rs2 => encodeR 0b0000000#7 rs2 rs1 0b100#3 rd 0b0110011#7
  | .srl rd rs1 rs2 => encodeR 0b0000000#7 rs2 rs1 0b101#3 rd 0b0110011#7
  | .sra rd rs1 rs2 => encodeR 0b0100000#7 rs2 rs1 0b101#3 rd 0b0110011#7
  | .or rd rs1 rs2 => encodeR 0b0000000#7 rs2 rs1 0b110#3 rd 0b0110011#7
  | .and rd rs1 rs2 => encodeR 0b0000000#7 rs2 rs1 0b111#3 rd 0b0110011#7
  | .beq rs1 rs2 offset => encodeSB offset rs2 rs1 0b000#3 0b1100011#7
  | .bne rs1 rs2 offset => encodeSB offset rs2 rs1 0b001#3 0b1100011#7
  | .blt rs1 rs2 offset => encodeSB offset rs2 rs1 0b100#3 0b1100011#7
  | .bge rs1 rs2 offset => encodeSB offset rs2 rs1 0b101#3 0b1100011#7
  | .bltu rs1 rs2 offset => encodeSB offset rs2 rs1 0b110#3 0b1100011#7
  | .bgeu rs1 rs2 offset => encodeSB offset rs2 rs1 0b111#3 0b1100011#7
  | .jal rd offset => encodeUJ offset rd 0b1101111#7
  | .jalr rd rs1 imm => encodeI imm rs1 0b000#3 rd 0b1100111#7
  | .lui rd imm20 => encodeU imm20 rd 0b0110111#7
  | .auipc rd imm20 => encodeU imm20 rd 0b0010111#7
  | .ecall rd rs1 imm => encodeI imm rs1 0b000#3 rd 0b1110011#7

/-- The mnemonic an instruction stands for. -/
def Instr.mnemonic : Instr → Mnemonic
  | .lb _ _ _ => .lb
  | .lh _ _ _ => .lh
  | .lw _ _ _ => .lw
  | .lbu _ _ _ => .lbu
  | .lhu _ _ _ => .lhu
  | .sb _ _ _ => .sb
  | .sh _ _ _ => .sh
  | .sw _ _ _ => .sw
  | .addi _ _ _ => .addi
  | .slti _ _ _ => .slti
  | .sltiu _ _ _ => .sltiu
  | .xori _ _ _ => .xori
  | .ori _ _ _ => .ori
  | .andi _ _ _ => .andi
  | .slli _ _ _ => .slli
  | .srli _ _ _ => .srli
  | .srai _ _ _ => .srai
  | .add _ _ _ => .add
  | .sub _ _ _ => .sub
  | .sll _ _ _ => .sll
  | .slt _ _ _ => .slt
  | .sltu _ _ _ => .sltu
  | .xor _ _ _ => .xor
  | .srl _ _ _ => .srl
  | .sra _ _ _ => .sra
  | .or _ _ _ => .or
  | .and _ _ _ => .and
  | .beq _ _ _ => .beq
  | .bne _ _ _ => .bne
  | .blt _ _ _ => .blt
  | .bge _ _ _ => .bge
  | .bltu _ _ _ => .bltu
  | .bgeu _ _ _ => .bgeu
  | .jal _ _ => .jal
  | .jalr _ _ _ => .jalr
  | .lui _ _ => .lui
  | .auipc _ _ => .auipc
  | .ecall _ _ _ => .ecall

/-! ### The decoded record, by the narrowing algorithm (R60, R64, R72) -/

/-- The Instruction record (R60). A field the resolved type does not define is unset (R64). -/
structure Record where
  raw : Word
  pc : Word
  opcode : BitVec 7
  funct3 : Option (BitVec 3)
  funct7 : Option (BitVec 7)
  rd : Option Reg
  rs1 : Option Reg
  rs2 : Option Reg
  immediate : Option Word
  mnemonic : Mnemonic
  encodingType : EncodingType
  deriving DecidableEq, Repr

/-- What the narrowing steps leave: the remaining candidates, and the discriminators that matched. -/
structure Narrowed where
  candidates : List TableRow
  funct3 : Option (BitVec 3)
  funct7 : Option (BitVec 7)
  deriving DecidableEq, Repr

/-- R72 step 2: if any candidate requires `funct3`, narrow to those whose `funct3` matches; the
extracted value is kept only when a match occurred (step 4). -/
def narrowFunct3 (w : Word) (n : Narrowed) : Narrowed :=
  if n.candidates.any (·.funct3.isSome) then
    let kept := n.candidates.filter (·.funct3 == some (funct3Of w))
    { n with candidates := kept, funct3 := if kept.isEmpty then none else some (funct3Of w) }
  else n

/-- R72 step 3: the same for `funct7`, asked of the candidates that survived step 2. -/
def narrowFunct7 (w : Word) (n : Narrowed) : Narrowed :=
  if n.candidates.any (·.funct7.isSome) then
    let kept := n.candidates.filter (·.funct7 == some (funct7Of w))
    { n with candidates := kept, funct7 := if kept.isEmpty then none else some (funct7Of w) }
  else n

/-- R72 steps 1 to 4. -/
def narrow (w : Word) : Narrowed :=
  narrowFunct7 w (narrowFunct3 w ⟨instructionTable.filter (·.opcode == opcodeOf w), none, none⟩)

/-- R72 step 6: "a static mnemonic→type table" (R76). -/
def Mnemonic.encodingType (m : Mnemonic) : EncodingType :=
  match m with
  | .add | .sub | .sll | .slt | .sltu | .xor | .srl | .sra | .or | .and => .r
  | .lb | .lh | .lw | .lbu | .lhu | .addi | .slti | .sltiu | .xori | .ori => .i
  | .andi | .slli | .srli | .srai | .jalr | .ecall => .i
  | .sb | .sh | .sw => .s
  | .beq | .bne | .blt | .bge | .bltu | .bgeu => .sb
  | .lui | .auipc => .u
  | .jal => .uj

/-- R64: the types that define `rd`. -/
def EncodingType.definesRd : EncodingType → Bool
  | .r | .i | .u | .uj => true
  | .s | .sb => false

/-- R64: the types that define `rs1`. -/
def EncodingType.definesRs1 : EncodingType → Bool
  | .r | .i | .s | .sb => true
  | .u | .uj => false

/-- R64: the types that define `rs2`. -/
def EncodingType.definesRs2 : EncodingType → Bool
  | .r | .s | .sb => true
  | .i | .u | .uj => false

/-- R65: the generator the type selects; the R-type has no immediate. -/
def EncodingType.immediate (t : EncodingType) (w : Word) : Option Word :=
  match t with
  | .r => none
  | .i => some (immI w)
  | .s => some (immS w)
  | .u => some (immU w)
  | .sb => some (immSB w)
  | .uj => some (immUJ w)

/-- `decode(word, pc) -> Instruction` (R72): steps 1 to 8, the record of a word fetched from `pc`. -/
def decodeRecord (w pc : Word) : Except DecodeError Record :=
  let n := narrow w
  match n.candidates.head? with
  | none => .error .unresolved
  | some row =>
    let t := row.mnemonic.encodingType
    .ok {
      raw := w
      pc := pc
      opcode := opcodeOf w
      funct3 := n.funct3
      funct7 := n.funct7
      rd := if t.definesRd then some (rdOf w) else none
      rs1 := if t.definesRs1 then some (rs1Of w) else none
      rs2 := if t.definesRs2 then some (rs2Of w) else none
      immediate := t.immediate w
      mnemonic := row.mnemonic
      encodingType := t }

end Sys2Proof
end

