-- ==== Sys2Proof/Machine/Operands.lean ====
section
/-! DEFINITION. The operand forms: sign-extended immediates, the upper immediate, the effective
address, and the branch and jump targets. -/

namespace Sys2Proof.Machine

/-- The effective address, base plus sign-extended displacement modulo 2^32 (42_loads_stores.md
R160). -/
def effAddr (s : State) (rs1 : Reg) (imm : BitVec 12) : Word := s.reg rs1 + sext imm

/-- `imm_u << 12`, the operand of LUI and AUIPC (47_upper_imm.md R250). -/
def upperImm (imm20 : BitVec 20) : Word := sext imm20 <<< 12

/-- `br_target` (30_encoding.md R70). -/
def branchTarget (s : State) (offset : BitVec 13) : Word := s.pc + sext offset

/-- `jmp_target` (R71). -/
def jumpTarget (s : State) (offset : BitVec 21) : Word := s.pc + sext offset

/-- The sign extension of the low byte of a value read (R14, 40_datapath_units.md R112). -/
def sextByte (v : Word) : Word := sext (v.setWidth 8)
/-- The zero extension of the low byte. -/
def zextByte (v : Word) : Word := zext (v.setWidth 8)
/-- The sign extension of the low halfword. -/
def sextHalf (v : Word) : Word := sext (v.setWidth 16)
/-- The zero extension of the low halfword. -/
def zextHalf (v : Word) : Word := zext (v.setWidth 16)

end Sys2Proof.Machine
end

