-- ==== Sys2Proof/Machine/Branch.lean ====
section
/-! DEFINITION. Conditional branches (45_branches.md). The condition of each mnemonic is 40_datapath_units.md
R121. -/

namespace Sys2Proof.Machine

/-- R220: `pc <- br_target` when the condition holds of the two registers, else `pc + 4`; nothing else
is written. -/
def branch (taken : Relations → Bool) (rs1 rs2 : Reg) (offset : BitVec 13) (s : State) : Result :=
  if taken (relations (s.reg rs1) (s.reg rs2)) then .next (s.setPc (branchTarget s offset))
  else .next (s.setPc (nextPc s))

/-- BEQ, R221. -/
def execBeq (rs1 rs2 : Reg) (offset : BitVec 13) (s : State) : Result :=
  branch (fun r => r.equal) rs1 rs2 offset s

/-- BNE, R222. -/
def execBne (rs1 rs2 : Reg) (offset : BitVec 13) (s : State) : Result :=
  branch (fun r => !r.equal) rs1 rs2 offset s

/-- BLT, R223. -/
def execBlt (rs1 rs2 : Reg) (offset : BitVec 13) (s : State) : Result :=
  branch (fun r => r.lessThanSigned) rs1 rs2 offset s

/-- BGE, R224. -/
def execBge (rs1 rs2 : Reg) (offset : BitVec 13) (s : State) : Result :=
  branch (fun r => !r.lessThanSigned) rs1 rs2 offset s

/-- BLTU, R225. -/
def execBltu (rs1 rs2 : Reg) (offset : BitVec 13) (s : State) : Result :=
  branch (fun r => r.lessThanUnsigned) rs1 rs2 offset s

/-- BGEU, R226. -/
def execBgeu (rs1 rs2 : Reg) (offset : BitVec 13) (s : State) : Result :=
  branch (fun r => !r.lessThanUnsigned) rs1 rs2 offset s

end Sys2Proof.Machine
end

