-- ==== Sys2Proof/Machine/Ecall.lean ====
section
/-! DEFINITION. The system instruction (48_system.md). -/

namespace Sys2Proof.Machine

/-- The argument register of ECALL, x10 (10_state.md R24). -/
def argumentReg : Reg := 10#5

/-- ECALL, R261: codes 0 and 10 halt with `pc` kept; code 1 is the print request (R262); any other
code does nothing; `pc <- pc + 4` when it does not halt. The three fields are not examined (R80, log 10). -/
def execEcall (_rd _rs1 : Reg) (_imm : BitVec 12) (s : State) : Result :=
  let code := s.reg argumentReg
  if code = 0x00000000#32 ∨ code = 0x0000000A#32 then halt .ecallHalt s
  else if code = 0x00000001#32 then .next (s.requestPrint.setPc (nextPc s))
  else .next (s.setPc (nextPc s))

end Sys2Proof.Machine
end

