-- ==== Sys2Proof/Machine/Jump.lean ====
section
/-! DEFINITION. Jumps (46_jumps.md). -/

namespace Sys2Proof.Machine

/-- JAL, R241: the link is the address of the following instruction; both values use the JAL's own
address. -/
def execJal (rd : Reg) (offset : BitVec 21) (s : State) : Result :=
  .next ((s.setReg rd (nextPc s)).setPc (jumpTarget s offset))

/-- JALR, R242: `raise Fatal(UnimplementedControlPath)`; "the fault does not depend on any register
value or field". -/
def execJalr (_rd _rs1 : Reg) (_imm : BitVec 12) (s : State) : Result :=
  raiseFatal .unimplementedControlPath s

end Sys2Proof.Machine
end

