-- ==== Sys2Proof/Machine/LoadStore.lean ====
section
/-! DEFINITION. Loads and stores (42_loads_stores.md). -/

namespace Sys2Proof.Machine

/-- R166: read, extend, write `rd`, `pc + 4`; on a fatal condition nothing is written. With `rd = 0`
the access and its checks are still made. -/
def load (n : Width) (extend : Word → Word) (rd rs1 : Reg) (imm : BitVec 12) (s : State) : Result :=
  match memRead s (effAddr s rs1 imm) n with
  | .ok v => writeBack rd (extend v) s
  | .error k => raiseFatal k s

/-- R170: store the low bits of `x[rs2]`, `pc + 4`; on a fatal condition nothing is written. -/
def store (n : Width) (rs2 rs1 : Reg) (imm : BitVec 12) (s : State) : Result :=
  match memWrite s (effAddr s rs1 imm) n (s.reg rs2) with
  | .ok m => .next ((s.setMem m).setPc (nextPc s))
  | .error k => raiseFatal k s

/-- LB, R161. -/
def execLb (rd rs1 : Reg) (imm : BitVec 12) (s : State) : Result := load .byte sextByte rd rs1 imm s

/-- LH, R162. -/
def execLh (rd rs1 : Reg) (imm : BitVec 12) (s : State) : Result := load .half sextHalf rd rs1 imm s

/-- LW, R163. -/
def execLw (rd rs1 : Reg) (imm : BitVec 12) (s : State) : Result := load .word id rd rs1 imm s

/-- LBU, R164. -/
def execLbu (rd rs1 : Reg) (imm : BitVec 12) (s : State) : Result := load .byte zextByte rd rs1 imm s

/-- LHU, R165. -/
def execLhu (rd rs1 : Reg) (imm : BitVec 12) (s : State) : Result := load .half zextHalf rd rs1 imm s

/-- SB, R167. -/
def execSb (rs2 rs1 : Reg) (imm : BitVec 12) (s : State) : Result := store .byte rs2 rs1 imm s

/-- SH, R168. -/
def execSh (rs2 rs1 : Reg) (imm : BitVec 12) (s : State) : Result := store .half rs2 rs1 imm s

/-- SW, R169. -/
def execSw (rs2 rs1 : Reg) (imm : BitVec 12) (s : State) : Result := store .word rs2 rs1 imm s

end Sys2Proof.Machine
end

