-- ==== Sys2Proof/Machine/Alu.lean ====
section
/-! DEFINITION. The ALU (40_datapath_units.md R103 to R107): ten functions of two 32-bit operands, no
state, no flag, no fatal condition. -/

namespace Sys2Proof.Machine

/-- `alu_function` (R103). -/
inductive AluFn where
  | add | sub | sll | slt | sltu | xor | srl | sra | or | and
  deriving DecidableEq, Repr

/-- 1 or 0 as a 32-bit value (R104). -/
def truth (b : Bool) : Word := if b then 1#32 else 0#32

/-- `sh = u(op2[4:0])` (R104, R106). -/
def shiftAmount (op2 : Word) : Nat := (op2.extractLsb' 0 5).toNat

/-- The table of R104. -/
def alu (f : AluFn) (op1 op2 : Word) : Word :=
  match f with
  | .add => op1 + op2
  | .sub => op1 - op2
  | .sll => op1 <<< shiftAmount op2
  | .slt => truth (decide (op1.toInt < op2.toInt))
  | .sltu => truth (decide (op1.toNat < op2.toNat))
  | .xor => op1 ^^^ op2
  | .srl => op1 >>> shiftAmount op2
  | .sra => op1.sshiftRight (shiftAmount op2)
  | .or => op1 ||| op2
  | .and => op1 &&& op2

end Sys2Proof.Machine
end

