-- ==== Sys2Proof/Machine/OpImm.lean ====
section
/-! DEFINITION. Immediate arithmetic and logic (43_op_imm.md). -/

namespace Sys2Proof.Machine

/-- R180: `x[rd] <- ALU(f, x[rs1], op2)`, `pc <- pc + 4`. -/
def aluImm (f : AluFn) (rd rs1 : Reg) (op2 : Word) (s : State) : Result :=
  writeBack rd (alu f (s.reg rs1) op2) s

/-- ADDI, R181. -/
def execAddi (rd rs1 : Reg) (imm : BitVec 12) (s : State) : Result :=
  aluImm .add rd rs1 (sext imm) s

/-- SLTI, R182. -/
def execSlti (rd rs1 : Reg) (imm : BitVec 12) (s : State) : Result :=
  aluImm .slt rd rs1 (sext imm) s

/-- SLTIU, R183. -/
def execSltiu (rd rs1 : Reg) (imm : BitVec 12) (s : State) : Result :=
  aluImm .sltu rd rs1 (sext imm) s

/-- XORI, R184. -/
def execXori (rd rs1 : Reg) (imm : BitVec 12) (s : State) : Result :=
  aluImm .xor rd rs1 (sext imm) s

/-- ORI, R185. -/
def execOri (rd rs1 : Reg) (imm : BitVec 12) (s : State) : Result :=
  aluImm .or rd rs1 (sext imm) s

/-- ANDI, R186. -/
def execAndi (rd rs1 : Reg) (imm : BitVec 12) (s : State) : Result :=
  aluImm .and rd rs1 (sext imm) s

/-- SLLI, R187: the amount is `word[24:20]` (R69). -/
def execSlli (rd rs1 : Reg) (shamt : BitVec 5) (s : State) : Result :=
  aluImm .sll rd rs1 (zext shamt) s

/-- SRLI, R188: the amount is `word[24:20]` (R69). -/
def execSrli (rd rs1 : Reg) (shamt : BitVec 5) (s : State) : Result :=
  aluImm .srl rd rs1 (zext shamt) s

/-- SRAI, R189: the amount is `word[24:20]` (R69). -/
def execSrai (rd rs1 : Reg) (shamt : BitVec 5) (s : State) : Result :=
  aluImm .sra rd rs1 (zext shamt) s

end Sys2Proof.Machine
end

