-- ==== Sys2Proof/Machine/OpReg.lean ====
section
/-! DEFINITION. Register arithmetic and logic (44_op_reg.md). -/

namespace Sys2Proof.Machine

/-- R200: `x[rd] <- ALU(f, x[rs1], x[rs2])`, `pc <- pc + 4`. -/
def aluReg (f : AluFn) (rd rs1 rs2 : Reg) (s : State) : Result :=
  writeBack rd (alu f (s.reg rs1) (s.reg rs2)) s

/-- ADD, R201. -/
def execAdd (rd rs1 rs2 : Reg) (s : State) : Result := aluReg .add rd rs1 rs2 s

/-- SUB, R202. -/
def execSub (rd rs1 rs2 : Reg) (s : State) : Result := aluReg .sub rd rs1 rs2 s

/-- SLL, R203. -/
def execSll (rd rs1 rs2 : Reg) (s : State) : Result := aluReg .sll rd rs1 rs2 s

/-- SLT, R204. -/
def execSlt (rd rs1 rs2 : Reg) (s : State) : Result := aluReg .slt rd rs1 rs2 s

/-- SLTU, R205. -/
def execSltu (rd rs1 rs2 : Reg) (s : State) : Result := aluReg .sltu rd rs1 rs2 s

/-- XOR, R206. -/
def execXor (rd rs1 rs2 : Reg) (s : State) : Result := aluReg .xor rd rs1 rs2 s

/-- SRL, R207. -/
def execSrl (rd rs1 rs2 : Reg) (s : State) : Result := aluReg .srl rd rs1 rs2 s

/-- SRA, R208. -/
def execSra (rd rs1 rs2 : Reg) (s : State) : Result := aluReg .sra rd rs1 rs2 s

/-- OR, R209. -/
def execOr (rd rs1 rs2 : Reg) (s : State) : Result := aluReg .or rd rs1 rs2 s

/-- AND, R210. -/
def execAnd (rd rs1 rs2 : Reg) (s : State) : Result := aluReg .and rd rs1 rs2 s

end Sys2Proof.Machine
end

