-- ==== Sys2Proof/Machine/UpperImm.lean ====
section
/-! DEFINITION. Upper-immediate instructions (47_upper_imm.md). -/

namespace Sys2Proof.Machine

/-- LUI, R251. -/
def execLui (rd : Reg) (imm20 : BitVec 20) (s : State) : Result := writeBack rd (upperImm imm20) s

/-- AUIPC, R252: `pc` is the address of the AUIPC itself. -/
def execAuipc (rd : Reg) (imm20 : BitVec 20) (s : State) : Result :=
  writeBack rd (s.pc + upperImm imm20) s

end Sys2Proof.Machine
end

