-- ==== Sys2Proof/Machine/Tick.lean ====
section
/-! DEFINITION. The tick (41_execution_engine.md R131 to R140): the stop checks and the fetch, decode,
then the meaning of the instruction; and what each run state does (R130). -/

namespace Sys2Proof.Machine

/-- Phases A and B of a tick (R132, R133): the tick stops, or an instruction is to run. -/
inductive Issue where
  | stop (r : Result)
  | run (i : Instr)

/-- Phases A and B in their order (R132, 60_exceptions.md R278): the PC bound, `Fetch`, the sentinel,
decode. -/
def issue (s : State) : Issue :=
  if s.launch.pcMax.toNat < s.pc.toNat then .stop (halt .pcRange s)
  else
    match fetch s s.pc with
    | .error k => .stop (raiseFatal k s)
    | .ok w =>
      if w = 0x00000000#32 then .stop (halt .sentinel s)
      else
        match decode w with
        | .error _ => .stop (raiseFatal .decodeError s)
        | .ok i => .run i

/-- One tick in RUNNING (R140). -/
def tick (s : State) : Result :=
  match issue s with
  | .stop r => r
  | .run i => exec i s

/-- One step: in RESET the register file and the rest of the state take their reset values and the
engine goes to RUNNING (R130, 70_reset_and_hazards.md R300, log 8); in RUNNING one tick; in a terminal
state there is no tick (log 5). A launch outside the constraints is refused (R302). -/
def cycle (s : State) : Result :=
  if s.launch.ok then
    match s.run with
    | .reset => .next (State.resetOf s.launch)
    | .running => tick s
    | .halted => .fault .halted
    | .faulted => .fault .faulted
  else .refused .launchOutsideSpec

/-- The state with a word put where the next fetch reads, at `pc`. -/
def placeWord (s : State) (w : Word) : State := s.setMem (s.mem.writeLE s.pc.toNat 4 w)

end Sys2Proof.Machine
end

