-- ==== Sys2Proof/Machine/Datapath.lean ====
section
/-! DEFINITION. The datapath units between decoder and state and the tick that wires them together, as
41_execution_engine.md R140 writes it: the decoded record, the control vector of its mnemonic
(40_datapath_units.md R115), operand selection, ALU, branch condition unit, data-memory port,
write-back. `step` does not use this file: the meanings are the closed forms of the instruction files,
and that both give the same tick is a claim (R140: "each instruction file restates the part of this
function its instructions take"). -/

namespace Sys2Proof.Machine

/-! ### The control vector (R100 to R103, R110 to R114) -/

/-- `op1_select` (R101). -/
inductive Op1Select where
  | rs1 | pc | zero
  deriving DecidableEq, Repr

/-- `op2_select` (R101). -/
inductive Op2Select where
  | rs2 | imm
  deriving DecidableEq, Repr

/-- `pc_select` (R110). No row selects `trap`. -/
inductive PcSelect where
  | seq | branch | jump | jalr | trap
  deriving DecidableEq, Repr

/-- `mem_mode` (R111). -/
inductive MemMode where
  | none | lb | lh | lw | lbu | lhu | sb | sh | sw
  deriving DecidableEq, Repr

/-- `writeback_select` (R114). No row selects `reserved`. -/
inductive WritebackSelect where
  | mem | alu | pc4 | reserved
  deriving DecidableEq, Repr

/-- The control vector (R100). -/
structure ControlVector where
  op1Select : Op1Select
  op2Select : Op2Select
  aluFunction : AluFn
  pcSelect : PcSelect
  memMode : MemMode
  regWriteEnable : Bool
  writebackSelect : WritebackSelect
  deriving DecidableEq, Repr

/-- `signals_for(mnemonic)` (R100), the table of R115 row by row. -/
def signalsFor (m : Mnemonic) : ControlVector :=
  match m with
  | .lb => ⟨.rs1, .imm, .add, .seq, .lb, true, .mem⟩
  | .lh => ⟨.rs1, .imm, .add, .seq, .lh, true, .mem⟩
  | .lw => ⟨.rs1, .imm, .add, .seq, .lw, true, .mem⟩
  | .lbu => ⟨.rs1, .imm, .add, .seq, .lbu, true, .mem⟩
  | .lhu => ⟨.rs1, .imm, .add, .seq, .lhu, true, .mem⟩
  | .sb => ⟨.rs1, .imm, .add, .seq, .sb, false, .alu⟩
  | .sh => ⟨.rs1, .imm, .add, .seq, .sh, false, .alu⟩
  | .sw => ⟨.rs1, .imm, .add, .seq, .sw, false, .alu⟩
  | .addi => ⟨.rs1, .imm, .add, .seq, .none, true, .alu⟩
  | .slti => ⟨.rs1, .imm, .slt, .seq, .none, true, .alu⟩
  | .sltiu => ⟨.rs1, .imm, .sltu, .seq, .none, true, .alu⟩
  | .xori => ⟨.rs1, .imm, .xor, .seq, .none, true, .alu⟩
  | .ori => ⟨.rs1, .imm, .or, .seq, .none, true, .alu⟩
  | .andi => ⟨.rs1, .imm, .and, .seq, .none, true, .alu⟩
  | .slli => ⟨.rs1, .imm, .sll, .seq, .none, true, .alu⟩
  | .srli => ⟨.rs1, .imm, .srl, .seq, .none, true, .alu⟩
  | .srai => ⟨.rs1, .imm, .sra, .seq, .none, true, .alu⟩
  | .add => ⟨.rs1, .rs2, .add, .seq, .none, true, .alu⟩
  | .sub => ⟨.rs1, .rs2, .sub, .seq, .none, true, .alu⟩
  | .sll => ⟨.rs1, .rs2, .sll, .seq, .none, true, .alu⟩
  | .slt => ⟨.rs1, .rs2, .slt, .seq, .none, true, .alu⟩
  | .sltu => ⟨.rs1, .rs2, .sltu, .seq, .none, true, .alu⟩
  | .xor => ⟨.rs1, .rs2, .xor, .seq, .none, true, .alu⟩
  | .srl => ⟨.rs1, .rs2, .srl, .seq, .none, true, .alu⟩
  | .sra => ⟨.rs1, .rs2, .sra, .seq, .none, true, .alu⟩
  | .or => ⟨.rs1, .rs2, .or, .seq, .none, true, .alu⟩
  | .and => ⟨.rs1, .rs2, .and, .seq, .none, true, .alu⟩
  | .beq => ⟨.rs1, .rs2, .sub, .branch, .none, false, .alu⟩
  | .bne => ⟨.rs1, .rs2, .sub, .branch, .none, false, .alu⟩
  | .blt => ⟨.rs1, .rs2, .sub, .branch, .none, false, .alu⟩
  | .bge => ⟨.rs1, .rs2, .sub, .branch, .none, false, .alu⟩
  | .bltu => ⟨.rs1, .rs2, .sub, .branch, .none, false, .alu⟩
  | .bgeu => ⟨.rs1, .rs2, .sub, .branch, .none, false, .alu⟩
  | .jal => ⟨.pc, .imm, .add, .jump, .none, true, .pc4⟩
  | .jalr => ⟨.rs1, .imm, .add, .jalr, .none, true, .pc4⟩
  | .lui => ⟨.zero, .imm, .add, .seq, .none, true, .alu⟩
  | .auipc => ⟨.pc, .imm, .add, .seq, .none, true, .alu⟩
  | .ecall => ⟨.zero, .imm, .add, .seq, .none, false, .alu⟩

/-! ### The units -/

/-- Branch-taken (R121); a mnemonic that is no branch does not consult it. -/
def branchTaken (m : Mnemonic) (r : Relations) : Bool :=
  match m with
  | .beq => r.equal
  | .bne => !r.equal
  | .blt => r.lessThanSigned
  | .bge => !r.lessThanSigned
  | .bltu => r.lessThanUnsigned
  | .bgeu => !r.lessThanUnsigned
  | _ => false

/-- The value of a source register that the type defines, else 0, which nothing reads (R64, R122). -/
def sourceValue (s : State) (r : Option Reg) : Word :=
  match r with
  | some i => s.reg i
  | none => 0#32

/-- `imm_op` (R102). -/
def immOperand (d : Record) : Word :=
  match d.encodingType with
  | .i => immI d.raw
  | .s => immS d.raw
  | .u => immU d.raw <<< 12
  | .r | .sb | .uj => 0#32

/-- Phase D, the resolved next PC (41_execution_engine.md R135). -/
def resolveNextPc (cv : ControlVector) (d : Record) (taken : Bool) (s : State) : Except FatalKind Word :=
  match cv.pcSelect with
  | .seq => .ok (nextPc s)
  | .branch => .ok (if taken then brTarget d.raw s.pc else nextPc s)
  | .jump => .ok (jmpTarget d.raw s.pc)
  | .jalr | .trap => .error .unimplementedControlPath

/-- What the data-memory port gives (R112): the extended value of a read and the memory after the
scheduled write. -/
def memoryPort (mode : MemMode) (ea storeData : Word) (s : State) : Except FatalKind (Word × Memory) :=
  let readAs (n : Width) (extend : Word → Word) : Except FatalKind (Word × Memory) :=
    (memRead s ea n).map (fun v => (extend v, s.mem))
  let writeAs (n : Width) : Except FatalKind (Word × Memory) :=
    (memWrite s ea n storeData).map (fun m => (0#32, m))
  match mode with
  | .none => .ok (0#32, s.mem)
  | .lw => readAs .word id
  | .lh => readAs .half sextHalf
  | .lhu => readAs .half zextHalf
  | .lb => readAs .byte sextByte
  | .lbu => readAs .byte zextByte
  | .sw => writeAs .word
  | .sh => writeAs .half
  | .sb => writeAs .byte

/-- `wb_value` (R114). -/
def writebackValue (sel : WritebackSelect) (memData aluResult pc4 : Word) : Except FatalKind Word :=
  match sel with
  | .mem => .ok memData
  | .alu => .ok aluResult
  | .pc4 => .ok pc4
  | .reserved => .error .unimplementedControlPath

/-- Phases C to H and the commit for a decoded record (R134 to R140). -/
def datapathExecute (d : Record) (s : State) : Result :=
  let cv := signalsFor d.mnemonic
  -- phase C
  let a := sourceValue s d.rs1
  let b := sourceValue s d.rs2
  let a10 := s.reg argumentReg
  let taken := branchTaken d.mnemonic (relations a b)
  -- phase D
  match resolveNextPc cv d taken s with
  | .error k => raiseFatal k s
  | .ok next =>
    -- phase E
    let op1 := match cv.op1Select with
      | .rs1 => a
      | .pc => s.pc
      | .zero => 0#32
    let op2 := match cv.op2Select with
      | .rs2 => b
      | .imm => immOperand d
    let aluResult := alu cv.aluFunction op1 op2
    -- phase F
    match memoryPort cv.memMode aluResult b s with
    | .error k => raiseFatal k s
    | .ok (memData, m) =>
      -- phase G
      match writebackValue cv.writebackSelect memData aluResult (nextPc s) with
      | .error k => raiseFatal k s
      | .ok wb =>
        -- phase H
        if d.mnemonic = .ecall ∧ (a10 = 0x00000000#32 ∨ a10 = 0x0000000A#32) then halt .ecallHalt s
        else
          -- commit
          let written := match cv.regWriteEnable, d.rd with
            | true, some rd => (s.setMem m).setReg rd wb
            | _, _ => s.setMem m
          let printed :=
            if d.mnemonic = .ecall ∧ a10 = 0x00000001#32 then written.requestPrint else written
          .next (printed.setPc next)

/-- `Tick(S)` (R140). -/
def datapathTick (s : State) : Result :=
  if s.launch.pcMax.toNat < s.pc.toNat then halt .pcRange s
  else
    match fetch s s.pc with
    | .error k => raiseFatal k s
    | .ok w =>
      if w = 0x00000000#32 then halt .sentinel s
      else
        match decodeRecord w s.pc with
        | .error _ => raiseFatal .decodeError s
        | .ok d => datapathExecute d s

end Sys2Proof.Machine
end

