-- ==== Sys2Proof/Safety.lean ====
section
/-! DEFINITION. The terms claims use: what the host may observe (00_scope.md R10), how a run ends, what
a state keeps for ever, and what an instruction leaves unchanged. -/

namespace Sys2Proof.Machine

/-! ### What the host sees (R10, R11) -/

/-- The termination signal (R10): "a normal message" or "a fatal message". -/
inductive Termination where
  | normal | fatal
  deriving DecidableEq, Repr

/-- The signal of a state: normal in HALTED, fatal in FAULTED, none while the engine runs. -/
def State.termination (s : State) : Option Termination :=
  match s.run with
  | .halted => some .normal
  | .faulted => some .fatal
  | .reset | .running => none

/-- What an observer may read (R10), without the tick index and the rendering, which are its own
(R143). -/
structure Observation where
  pc : Word
  raw : Word
  decoded : Except DecodeError Instr
  regs : Vector Word 32
  deriving DecidableEq

/-- The observation of a state (DESIGN CHOICE, log 11): the raw word and the decoded instruction are
those of the four bytes at `pc`, also where `pc` is misaligned or outside the mapped region and no word
can be fetched; an unmapped byte reads as 0x00 there. -/
def State.observe (s : State) : Observation where
  pc := s.pc
  raw := s.mem.word s.pc.toNat
  decoded := decode (s.mem.word s.pc.toNat)
  regs := s.regs

/-! ### The invariant -/

/-- R28: the stop reason fits the run state. -/
def stopReasonFits (run : RunState) (reason : Option StopReason) : Bool :=
  match run, reason with
  | .reset, none | .running, none => true
  | .halted, some (.halt _) => true
  | .faulted, some (.fatal k) => k != .invalidRegisterIndex
  | _, _ => false

/-- What every step keeps: the cell of x0 is 0 (10_state.md R23), memory is in its one form and holds
nothing outside the mapped region (R31, 20_memory.md R41), `pc` is even (10_state.md R26), and the stop
reason fits the run state (R28). -/
structure State.Inv (s : State) : Prop where
  zeroCell : s.regs[0] = 0#32
  memCanonical : s.mem.wf = true
  memMapped : s.mem.all (fun c => s.launch.mappedByte c.1) = true
  pcEven : s.pc.toNat % 2 = 0
  reasonFits : stopReasonFits s.run s.stopReason = true

/-! ### Frames -/

/-- Nothing but registers, memory, `pc` and the print count may differ: the engine goes on with the
same launch. -/
structure GoesOn (s t : State) : Prop where
  launch : t.launch = s.launch
  run : t.run = s.run
  stopReason : t.stopReason = s.stopReason

/-- Every register but `rd` is unchanged. -/
def RegsKeptBut (rd : Reg) (s t : State) : Prop := ∀ r, r ≠ rd → t.reg r = s.reg r

/-- Every register is unchanged. -/
def RegsKept (s t : State) : Prop := ∀ r, t.reg r = s.reg r

/-- Every byte of memory reads as before. -/
def MemKept (s t : State) : Prop := ∀ a, t.mem.read a = s.mem.read a

/-- Every byte outside the `n` bytes from `ea` reads as before. -/
def MemKeptBut (ea n : Nat) (s t : State) : Prop :=
  ∀ a, a < ea ∨ ea + n ≤ a → t.mem.read a = s.mem.read a

/-- What a register-writing instruction leaves: `rd` holds `v` (or 0 when `rd` is x0), and nothing
else but `pc` has changed. -/
structure WritesOnly (rd : Reg) (v : Word) (s t : State) : Prop where
  value : t.reg rd = if rd = 0#5 then 0#32 else v
  regs : RegsKeptBut rd s t
  mem : MemKept s t
  goesOn : GoesOn s t
  prints : t.printRequests = s.printRequests

/-- A stop that changes the run state and the stop reason and nothing else. -/
structure StopsAs (r : RunState) (reason : StopReason) (s t : State) : Prop where
  run : t.run = r
  stopReason : t.stopReason = some reason
  pc : t.pc = s.pc
  regs : RegsKept s t
  mem : MemKept s t
  launch : t.launch = s.launch
  prints : t.printRequests = s.printRequests

/-- What a branch leaves: nothing but `pc` has changed. -/
structure OnlyPcMoves (s t : State) : Prop where
  regs : RegsKept s t
  mem : MemKept s t
  goesOn : GoesOn s t
  prints : t.printRequests = s.printRequests

/-- The register an instruction writes when it goes on; JALR never goes on (46_jumps.md R242). -/
def Instr.dest (i : Instr) : Option Reg :=
  match i with
  | .lb rd _ _ | .lh rd _ _ | .lw rd _ _ | .lbu rd _ _ | .lhu rd _ _ => some rd
  | .addi rd _ _ | .slti rd _ _ | .sltiu rd _ _ | .xori rd _ _ | .ori rd _ _ | .andi rd _ _ => some rd
  | .slli rd _ _ | .srli rd _ _ | .srai rd _ _ => some rd
  | .add rd _ _ | .sub rd _ _ | .sll rd _ _ | .slt rd _ _ | .sltu rd _ _ => some rd
  | .xor rd _ _ | .srl rd _ _ | .sra rd _ _ | .or rd _ _ | .and rd _ _ => some rd
  | .jal rd _ | .lui rd _ | .auipc rd _ => some rd
  | .sb _ _ _ | .sh _ _ _ | .sw _ _ _ => none
  | .beq _ _ _ | .bne _ _ _ | .blt _ _ _ | .bge _ _ _ | .bltu _ _ _ | .bgeu _ _ _ => none
  | .jalr _ _ _ | .ecall _ _ _ => none

/-! ### Values as numbers -/

/-- Lanes `8k + 8n - 1` down to `8k` of a word, as a number (20_memory.md R45). -/
def lanes (w : Word) (k n : Nat) : Nat := w.toNat / 2 ^ (8 * k) % 2 ^ (8 * n)

/-- The 32-bit vector of a number below `2^n` read as an `n`-bit two's-complement number
(00_scope.md R14). -/
def signedFrom (n x : Nat) : Word :=
  if x < 2 ^ (n - 1) then BitVec.ofNat 32 x else BitVec.ofNat 32 (x + (2 ^ 32 - 2 ^ n))

/-- A word carries an instruction under a row of 30_encoding.md R75: `word & mask == match`, and the
decoder gives the instruction back. -/
structure EncodedBy (mask matched : Word) (i : Instr) : Prop where
  row : encode i &&& mask = matched
  decoded : decode (encode i) = .ok i

end Sys2Proof.Machine
end

