-- ==== Sys2Proof/Certificates/Slice0/Obligations.lean ====
section
/-! DEFINITION. The statements for the provers, in the order of OBLIGATIONS.json. Each docstring names
the sentence of the spec it formalises. A clause that rests on a choice the spec marks as its own
(92_eei_decisions.md D<n>) or on the model's (log <n>) says so. -/

open Sys2Proof Sys2Proof.Machine

/-! ### Encoding and decoding -/

/-- 95_test_vectors.md V-DEC-1 to V-DEC-3 and the JALR example of 46_jumps.md R242: words of every
family, as the spec writes them, decode to the instructions it gives. That 0x30200073 is an ECALL is the
spec's decision D9, where a model may refuse it; this model runs it (DESIGN CHOICE, log 10). -/
def Obligations.DecodeReadsTheSpecsWords : Prop :=
  decode 0xFFC12283#32 = .ok (.lw 5#5 2#5 (-4#12)) ∧
  decode 0xFE112E23#32 = .ok (.sw 1#5 2#5 (-4#12)) ∧
  decode 0x00500093#32 = .ok (.addi 1#5 0#5 5#12) ∧
  decode 0x4012D313#32 = .ok (.srai 6#5 5#5 1#5) ∧
  decode 0x402081B3#32 = .ok (.sub 3#5 1#5 2#5) ∧
  decode 0xFE029CE3#32 = .ok (.bne 5#5 0#5 (-8#13)) ∧
  decode 0x000000E3#32 = .ok (.beq 0#5 0#5 2048#13) ∧
  decode 0x001000EF#32 = .ok (.jal 1#5 2048#21) ∧
  decode 0x004280E7#32 = .ok (.jalr 1#5 5#5 4#12) ∧
  decode 0x00001597#32 = .ok (.auipc 11#5 1#20) ∧
  decode 0x30200073#32 = .ok (.ecall 0#5 0#5 0x302#12) ∧
  decode 0x022081B3#32 = .error .unresolved

/-- Decode and encode agree: every well-formed instruction, with every operand at every value its
encoding admits, comes back from its word (30_encoding.md R63, R75, R77). -/
def Obligations.DecodeOfEncodeIsTheInstruction : Prop :=
  ∀ i : Instr, i.wf = true → decode (encode i) = .ok i

/-- The other direction: a word that decodes is the encoding of a well-formed instruction, so no bit of
an accepted word is dropped (30_encoding.md R63, R80). -/
def Obligations.EncodeOfDecodeIsTheWord : Prop :=
  ∀ (w : Word) (i : Instr), decode w = .ok i → i.wf = true ∧ encode i = w

/-- R63: the layouts. The encoder puts the opcode, `funct3` and `funct7` of the instruction's row and
every operand bit where the layout of its type names it. -/
def Obligations.LayoutsPlaceEveryField : Prop :=
  (∀ i : Instr, ∃ row ∈ instructionTable, row.mnemonic = i.mnemonic ∧
    (encode i).extractLsb' 0 7 = row.opcode ∧
    (∀ f, row.funct3 = some f → (encode i).extractLsb' 12 3 = f) ∧
    (∀ f, row.funct7 = some f → (encode i).extractLsb' 25 7 = f)) ∧
  (∀ (rd rs1 : Reg) (imm : BitVec 12),
    ∀ i ∈ [Instr.lb rd rs1 imm, .lh rd rs1 imm, .lw rd rs1 imm, .lbu rd rs1 imm, .lhu rd rs1 imm,
      .addi rd rs1 imm, .slti rd rs1 imm, .sltiu rd rs1 imm, .xori rd rs1 imm, .ori rd rs1 imm,
      .andi rd rs1 imm, .jalr rd rs1 imm, .ecall rd rs1 imm],
    (encode i).extractLsb' 20 12 = imm ∧ (encode i).extractLsb' 15 5 = rs1 ∧
      (encode i).extractLsb' 7 5 = rd) ∧
  (∀ (rd rs1 : Reg) (shamt : BitVec 5),
    ∀ i ∈ [Instr.slli rd rs1 shamt, .srli rd rs1 shamt, .srai rd rs1 shamt],
    (encode i).extractLsb' 20 5 = shamt ∧ (encode i).extractLsb' 15 5 = rs1 ∧
      (encode i).extractLsb' 7 5 = rd) ∧
  (∀ rd rs1 rs2 : Reg,
    ∀ i ∈ [Instr.add rd rs1 rs2, .sub rd rs1 rs2, .sll rd rs1 rs2, .slt rd rs1 rs2, .sltu rd rs1 rs2,
      .xor rd rs1 rs2, .srl rd rs1 rs2, .sra rd rs1 rs2, .or rd rs1 rs2, .and rd rs1 rs2],
    (encode i).extractLsb' 20 5 = rs2 ∧ (encode i).extractLsb' 15 5 = rs1 ∧
      (encode i).extractLsb' 7 5 = rd) ∧
  (∀ (rs2 rs1 : Reg) (imm : BitVec 12),
    ∀ i ∈ [Instr.sb rs2 rs1 imm, .sh rs2 rs1 imm, .sw rs2 rs1 imm],
    (encode i).extractLsb' 25 7 = imm.extractLsb' 5 7 ∧ (encode i).extractLsb' 7 5 = imm.extractLsb' 0 5 ∧
      (encode i).extractLsb' 20 5 = rs2 ∧ (encode i).extractLsb' 15 5 = rs1) ∧
  (∀ (rs1 rs2 : Reg) (offset : BitVec 13),
    ∀ i ∈ [Instr.beq rs1 rs2 offset, .bne rs1 rs2 offset, .blt rs1 rs2 offset, .bge rs1 rs2 offset,
      .bltu rs1 rs2 offset, .bgeu rs1 rs2 offset],
    (encode i).extractLsb' 31 1 = offset.extractLsb' 12 1 ∧
      (encode i).extractLsb' 25 6 = offset.extractLsb' 5 6 ∧
      (encode i).extractLsb' 8 4 = offset.extractLsb' 1 4 ∧
      (encode i).extractLsb' 7 1 = offset.extractLsb' 11 1 ∧
      (encode i).extractLsb' 20 5 = rs2 ∧ (encode i).extractLsb' 15 5 = rs1) ∧
  (∀ (rd : Reg) (imm20 : BitVec 20), ∀ i ∈ [Instr.lui rd imm20, .auipc rd imm20],
    (encode i).extractLsb' 12 20 = imm20 ∧ (encode i).extractLsb' 7 5 = rd) ∧
  ∀ (rd : Reg) (offset : BitVec 21),
    (encode (.jal rd offset)).extractLsb' 31 1 = offset.extractLsb' 20 1 ∧
      (encode (.jal rd offset)).extractLsb' 21 10 = offset.extractLsb' 1 10 ∧
      (encode (.jal rd offset)).extractLsb' 20 1 = offset.extractLsb' 11 1 ∧
      (encode (.jal rd offset)).extractLsb' 12 8 = offset.extractLsb' 12 8 ∧
      (encode (.jal rd offset)).extractLsb' 7 5 = rd

/-- R75: "a word is the row's instruction exactly when `word & mask == match`"; and R76, the type of
each mnemonic is the row's. -/
def Obligations.WordIsRowsInstructionIffMaskMatches : Prop :=
  (∀ (row : TableRow), row ∈ instructionTable → ∀ w : Word,
    ((∃ i, decode w = .ok i ∧ i.mnemonic = row.mnemonic) ↔ w &&& row.maskWord = row.matchWord)) ∧
  ∀ row : TableRow, row ∈ instructionTable → row.mnemonic.encodingType = row.type

/-- R74 (which the spec derives): no two rows of the table accept one word. -/
def Obligations.AtMostOneRowMatchesAWord : Prop :=
  ∀ (w : Word) (r r' : TableRow), r ∈ instructionTable → r' ∈ instructionTable →
    w &&& r.maskWord = r.matchWord → w &&& r'.maskWord = r'.matchWord → r = r'

/-- R74 (which the spec derives): the narrowing algorithm of R72 is equal, word for word, to finding
the one row with `word & mask == match`. -/
def Obligations.NarrowingFindsTheMatchingRow : Prop :=
  ∀ w pc : Word,
    (decodeRecord w pc).toOption.map (·.mnemonic) =
      (instructionTable.find? (fun r => w &&& r.maskWord == r.matchWord)).map (·.mnemonic)

/-- R64 and R60: the record keeps the raw word and its address, each field the resolved type defines is
set to its bits, and every other field is unset. That `funct7` is set for SLLI, SRLI and SRAI is the
spec's decision D30. -/
def Obligations.RecordHasExactlyTheTypesFields : Prop :=
  ∀ (w pc : Word) (d : Record), decodeRecord w pc = .ok d →
    d.raw = w ∧ d.pc = pc ∧ d.opcode = opcodeOf w ∧ d.encodingType = d.mnemonic.encodingType ∧
    d.rd = (if d.encodingType = .s ∨ d.encodingType = .sb then none else some (rdOf w)) ∧
    d.rs1 = (if d.encodingType = .u ∨ d.encodingType = .uj then none else some (rs1Of w)) ∧
    d.rs2 = (if d.encodingType = .r ∨ d.encodingType = .s ∨ d.encodingType = .sb then some (rs2Of w)
      else none) ∧
    d.funct3 = (if d.encodingType = .u ∨ d.encodingType = .uj then none else some (funct3Of w)) ∧
    d.funct7 = (if d.encodingType = .r ∨ d.mnemonic = .slli ∨ d.mnemonic = .srli ∨ d.mnemonic = .srai
      then some (funct7Of w) else none)

/-- R66 and R67: the I-type and S-type immediates are the sign-extended 12-bit fields, bit by bit and
in range; and the source's two worked values. -/
def Obligations.ImmediatesOfIAndSTypes : Prop :=
  (∀ (w : Word) (j : Nat), j < 32 →
    (immI w).getLsbD j = w.getLsbD (if j < 11 then 20 + j else 31) ∧
    (immS w).getLsbD j =
      w.getLsbD (if j < 5 then 7 + j else if j < 11 then 25 + (j - 5) else 31)) ∧
  (∀ w : Word, -2048 ≤ (immI w).toInt ∧ (immI w).toInt ≤ 2047) ∧
  (∀ w : Word, -2048 ≤ (immS w).toInt ∧ (immS w).toInt ≤ 2047) ∧
  immI 0x00500093#32 = 5#32 ∧
  ∀ w : Word, w.extractLsb' 20 12 = 0xFFF#12 → immI w = 0xFFFFFFFF#32

/-- R68, R70, R71: the sign-extended U-type field, its value shifted by its consumer, and the branch and
jump offsets, bit by bit, with their even ranges and the targets. That the record holds the unshifted
field and the offset is the spec's decision D21. -/
def Obligations.ImmediatesOfUSBAndUJTypes : Prop :=
  (∀ (w : Word) (j : Nat), j < 32 →
    (immU w).getLsbD j = w.getLsbD (if j < 20 then 12 + j else 31) ∧
    (immU w <<< 12).getLsbD j = (decide (12 ≤ j) && w.getLsbD j) ∧
    (immSB w).getLsbD j =
      (decide (j ≠ 0) && w.getLsbD (if j < 5 then 8 + (j - 1) else if j < 11 then 25 + (j - 5)
        else if j = 11 then 7 else 31)) ∧
    (immUJ w).getLsbD j =
      (decide (j ≠ 0) && w.getLsbD (if j < 11 then 21 + (j - 1) else if j = 11 then 20
        else if j < 20 then j else 31))) ∧
  (∀ w : Word, -4096 ≤ (immSB w).toInt ∧ (immSB w).toInt ≤ 4094 ∧
    -1048576 ≤ (immUJ w).toInt ∧ (immUJ w).toInt ≤ 1048574) ∧
  (∀ w pc : Word, (brTarget w pc).toNat = ((pc.toNat : Int) + (immSB w).toInt) % 2 ^ 32 ∧
    (jmpTarget w pc).toNat = ((pc.toNat : Int) + (immUJ w).toInt) % 2 ^ 32) ∧
  ∀ (w pc : Word) (d : Record), decodeRecord w pc = .ok d →
    d.immediate = (match d.encodingType with
      | .r => none
      | .i => some (immI w)
      | .s => some (immS w)
      | .u => some (immU w)
      | .sb => some (immSB w)
      | .uj => some (immUJ w))

/-- R79 (which the spec derives) and R78: the classes of words that are no instruction. -/
def Obligations.OtherWordsDoNotDecode : Prop :=
  ∀ w : Word,
    (w.extractLsb' 0 2 ≠ 0b11#2 ∨
      (opcodeOf w = 0b0001111#7) ∨
      (opcodeOf w = 0b0000011#7 ∧ funct3Of w ∈ [0b011#3, 0b110#3, 0b111#3]) ∨
      (opcodeOf w = 0b0100011#7 ∧ funct3Of w ∈ [0b011#3, 0b100#3, 0b101#3, 0b110#3, 0b111#3]) ∨
      (opcodeOf w = 0b1100011#7 ∧ funct3Of w ∈ [0b010#3, 0b011#3]) ∨
      (opcodeOf w = 0b0010011#7 ∧ funct3Of w = 0b001#3 ∧ funct7Of w ≠ 0b0000000#7) ∨
      (opcodeOf w = 0b0010011#7 ∧ funct3Of w = 0b101#3 ∧ funct7Of w ≠ 0b0000000#7 ∧
        funct7Of w ≠ 0b0100000#7) ∨
      (opcodeOf w = 0b0110011#7 ∧ funct7Of w ≠ 0b0000000#7 ∧ funct7Of w ≠ 0b0100000#7) ∨
      (opcodeOf w = 0b0110011#7 ∧ funct7Of w = 0b0100000#7 ∧ funct3Of w ≠ 0b000#3 ∧
        funct3Of w ≠ 0b101#3) ∨
      (opcodeOf w = 0b1100111#7 ∧ funct3Of w ≠ 0b000#3) ∨
      (opcodeOf w = 0b1110011#7 ∧ funct3Of w ≠ 0b000#3) ∨
      opcodeOf w ∉ [0b0000011#7, 0b0100011#7, 0b0010011#7, 0b0110011#7, 0b1100011#7, 0b1101111#7,
        0b1100111#7, 0b0110111#7, 0b0010111#7, 0b1110011#7]) →
    decode w = .error .unresolved

/-- R80 (the spec's decision D9): every word with opcode 0b1110011 and `funct3 = 0b000` is an ECALL,
whatever its other bits. -/
def Obligations.EveryZeroFunct3SystemWordIsEcall : Prop :=
  ∀ w : Word, opcodeOf w = 0b1110011#7 → funct3Of w = 0b000#3 →
    decode w = .ok (.ecall (rdOf w) (rs1Of w) (immIField w))

/-! ### Loads and stores -/

/-- R161 to R165, R160: each load whose checks pass completes with the extended lanes of the containing
word in `rd`, `pc + 4`, and nothing else changed; and each is the word of its opcode and `funct3`. -/
def Obligations.LoadsReadTheirLanes : Prop :=
  ∀ (s : State) (rd rs1 : Reg) (imm : BitVec 12),
    let ea := effAddr s rs1 imm
    let w := s.mem.word (ea.toNat / 4 * 4)
    let k := ea.toNat % 4
    (s.launch.inData (ea.toNat / 4 * 4) = true →
      (∃ t, exec (.lb rd rs1 imm) s = .next t ∧ t.pc = s.pc + 4#32 ∧
        WritesOnly rd (signedFrom 8 (lanes w k 1)) s t) ∧
      (∃ t, exec (.lbu rd rs1 imm) s = .next t ∧ t.pc = s.pc + 4#32 ∧
        WritesOnly rd (BitVec.ofNat 32 (lanes w k 1)) s t) ∧
      (ea.toNat % 2 = 0 → ∃ t, exec (.lh rd rs1 imm) s = .next t ∧ t.pc = s.pc + 4#32 ∧
        WritesOnly rd (signedFrom 16 (lanes w k 2)) s t) ∧
      (ea.toNat % 2 = 0 → ∃ t, exec (.lhu rd rs1 imm) s = .next t ∧ t.pc = s.pc + 4#32 ∧
        WritesOnly rd (BitVec.ofNat 32 (lanes w k 2)) s t) ∧
      (ea.toNat % 4 = 0 → ∃ t, exec (.lw rd rs1 imm) s = .next t ∧ t.pc = s.pc + 4#32 ∧
        WritesOnly rd w s t)) ∧
    EncodedBy 0x0000707F#32 0x00000003#32 (.lb rd rs1 imm) ∧
    EncodedBy 0x0000707F#32 0x00001003#32 (.lh rd rs1 imm) ∧
    EncodedBy 0x0000707F#32 0x00002003#32 (.lw rd rs1 imm) ∧
    EncodedBy 0x0000707F#32 0x00004003#32 (.lbu rd rs1 imm) ∧
    EncodedBy 0x0000707F#32 0x00005003#32 (.lhu rd rs1 imm)

/-- R167 to R169: each store whose checks pass completes, replaces its lanes of the containing word by
the low bits of `x[rs2]`, keeps the word's other bits and every byte outside the stored ones, and
changes no register; and each is the word of its opcode and `funct3`. -/
def Obligations.StoresWriteTheirLanes : Prop :=
  ∀ (s : State) (rs2 rs1 : Reg) (imm : BitVec 12),
    let ea := effAddr s rs1 imm
    let wa := ea.toNat / 4 * 4
    let k := ea.toNat % 4
    let stored := fun (i : Instr) (n : Nat) =>
      ∃ t, exec i s = .next t ∧ t.pc = s.pc + 4#32 ∧ RegsKept s t ∧ GoesOn s t ∧
        t.printRequests = s.printRequests ∧ MemKeptBut ea.toNat n s t ∧
        ∀ j, j < 32 → (t.mem.word wa).getLsbD j =
          if 8 * k ≤ j ∧ j < 8 * k + 8 * n then (s.reg rs2).getLsbD (j - 8 * k)
          else (s.mem.word wa).getLsbD j
    (s.launch.inData wa = true →
      stored (.sb rs2 rs1 imm) 1 ∧
      (ea.toNat % 2 = 0 → stored (.sh rs2 rs1 imm) 2) ∧
      (ea.toNat % 4 = 0 → stored (.sw rs2 rs1 imm) 4)) ∧
    EncodedBy 0x0000707F#32 0x00000023#32 (.sb rs2 rs1 imm) ∧
    EncodedBy 0x0000707F#32 0x00001023#32 (.sh rs2 rs1 imm) ∧
    EncodedBy 0x0000707F#32 0x00002023#32 (.sw rs2 rs1 imm)

/-- R45, R46, R166, R170 (the spec's decisions D11, D13): a misaligned halfword or word access is fatal
`DataMisaligned`, whatever the range; an aligned access whose word is outside the data segment is fatal
`DataAccessOutOfRange`; nothing is written, also with `rd = 0`. What the stop keeps is its decision D22
(R138, log 5). -/
def Obligations.DataAccessChecksInOrder : Prop :=
  ∀ (s : State) (r rs1 : Reg) (imm : BitVec 12),
    let ea := effAddr s rs1 imm
    let wa := ea.toNat / 4 * 4
    let outside := ¬ (s.launch.dataBase ≤ wa ∧ wa + 3 < s.launch.dataLimit)
    let stops := fun (i : Instr) (kind : FatalKind) =>
      ∃ t, exec i s = .next t ∧ StopsAs .faulted (.fatal kind) s t
    (∀ i ∈ [Instr.lb r rs1 imm, .lbu r rs1 imm, .sb r rs1 imm],
      outside → stops i .dataAccessOutOfRange) ∧
    (∀ i ∈ [Instr.lh r rs1 imm, .lhu r rs1 imm, .sh r rs1 imm],
      (ea.toNat % 2 ≠ 0 → stops i .dataMisaligned) ∧
      (ea.toNat % 2 = 0 → outside → stops i .dataAccessOutOfRange)) ∧
    (∀ i ∈ [Instr.lw r rs1 imm, .sw r rs1 imm],
      (ea.toNat % 4 ≠ 0 → stops i .dataMisaligned) ∧
      (ea.toNat % 4 = 0 → outside → stops i .dataAccessOutOfRange))

/-- R160: the effective address is `x[rs1]` plus the sign-extended displacement modulo 2^32. -/
def Obligations.EffectiveAddressWraps : Prop :=
  ∀ (s : State) (rs1 : Reg) (imm : BitVec 12),
    ((effAddr s rs1 imm).toNat : Int) = ((s.reg rs1).toNat + imm.toInt) % 2 ^ 32

/-! ### Immediate arithmetic and logic -/

/-- R181, R182, R183: ADDI adds modulo 2^32, SLTI compares signed, SLTIU compares unsigned with the
sign-extended immediate; each writes `rd` only and goes on at `pc + 4`. -/
def Obligations.AddiSltiSltiuResults : Prop :=
  ∀ (s : State) (rd rs1 : Reg) (imm : BitVec 12),
    let x := s.reg rs1
    (∃ t v, exec (.addi rd rs1 imm) s = .next t ∧ t.pc = s.pc + 4#32 ∧ WritesOnly rd v s t ∧
      (v.toNat : Int) = (x.toNat + imm.toInt) % 2 ^ 32 ∧
      EncodedBy 0x0000707F#32 0x00000013#32 (.addi rd rs1 imm)) ∧
    (∃ t v, exec (.slti rd rs1 imm) s = .next t ∧ t.pc = s.pc + 4#32 ∧ WritesOnly rd v s t ∧
      v = (if x.toInt < imm.toInt then 1#32 else 0#32) ∧
      EncodedBy 0x0000707F#32 0x00002013#32 (.slti rd rs1 imm)) ∧
    (∃ t v, exec (.sltiu rd rs1 imm) s = .next t ∧ t.pc = s.pc + 4#32 ∧ WritesOnly rd v s t ∧
      v = (if (x.toNat : Int) < imm.toInt % 2 ^ 32 then 1#32 else 0#32) ∧
      EncodedBy 0x0000707F#32 0x00003013#32 (.sltiu rd rs1 imm))

/-- R184, R185, R186: XORI, ORI, ANDI work bit by bit on the sign-extended immediate. -/
def Obligations.XoriOriAndiResults : Prop :=
  ∀ (s : State) (rd rs1 : Reg) (imm : BitVec 12),
    let x := s.reg rs1
    let bit := fun (j : Nat) => imm.getLsbD (if j < 11 then j else 11)
    (∃ t v, exec (.xori rd rs1 imm) s = .next t ∧ t.pc = s.pc + 4#32 ∧ WritesOnly rd v s t ∧
      (∀ j, j < 32 → v.getLsbD j = (x.getLsbD j ^^ bit j)) ∧
      EncodedBy 0x0000707F#32 0x00004013#32 (.xori rd rs1 imm)) ∧
    (∃ t v, exec (.ori rd rs1 imm) s = .next t ∧ t.pc = s.pc + 4#32 ∧ WritesOnly rd v s t ∧
      (∀ j, j < 32 → v.getLsbD j = (x.getLsbD j || bit j)) ∧
      EncodedBy 0x0000707F#32 0x00006013#32 (.ori rd rs1 imm)) ∧
    (∃ t v, exec (.andi rd rs1 imm) s = .next t ∧ t.pc = s.pc + 4#32 ∧ WritesOnly rd v s t ∧
      (∀ j, j < 32 → v.getLsbD j = (x.getLsbD j && bit j)) ∧
      EncodedBy 0x0000707F#32 0x00007013#32 (.andi rd rs1 imm))

/-- R187, R188, R189: SLLI, SRLI and SRAI as multiplication and division by a power of two. -/
def Obligations.SlliSrliSraiResults : Prop :=
  ∀ (s : State) (rd rs1 : Reg) (shamt : BitVec 5),
    let x := s.reg rs1
    (∃ t v, exec (.slli rd rs1 shamt) s = .next t ∧ t.pc = s.pc + 4#32 ∧ WritesOnly rd v s t ∧
      v.toNat = x.toNat * 2 ^ shamt.toNat % 2 ^ 32 ∧
      EncodedBy 0xFE00707F#32 0x00001013#32 (.slli rd rs1 shamt)) ∧
    (∃ t v, exec (.srli rd rs1 shamt) s = .next t ∧ t.pc = s.pc + 4#32 ∧ WritesOnly rd v s t ∧
      v.toNat = x.toNat / 2 ^ shamt.toNat ∧
      EncodedBy 0xFE00707F#32 0x00005013#32 (.srli rd rs1 shamt)) ∧
    (∃ t v, exec (.srai rd rs1 shamt) s = .next t ∧ t.pc = s.pc + 4#32 ∧ WritesOnly rd v s t ∧
      v.toInt = x.toInt / 2 ^ shamt.toNat ∧
      EncodedBy 0xFE00707F#32 0x40005013#32 (.srai rd rs1 shamt))

/-! ### Register arithmetic and logic -/

/-- R201, R202: ADD and SUB modulo 2^32. -/
def Obligations.AddSubResults : Prop :=
  ∀ (s : State) (rd rs1 rs2 : Reg),
    (∃ t v, exec (.add rd rs1 rs2) s = .next t ∧ t.pc = s.pc + 4#32 ∧ WritesOnly rd v s t ∧
      v.toNat = ((s.reg rs1).toNat + (s.reg rs2).toNat) % 2 ^ 32 ∧
      EncodedBy 0xFE00707F#32 0x00000033#32 (.add rd rs1 rs2)) ∧
    (∃ t v, exec (.sub rd rs1 rs2) s = .next t ∧ t.pc = s.pc + 4#32 ∧ WritesOnly rd v s t ∧
      (v.toNat : Int) = ((s.reg rs1).toNat - (s.reg rs2).toNat : Int) % 2 ^ 32 ∧
      EncodedBy 0xFE00707F#32 0x40000033#32 (.sub rd rs1 rs2))

/-- R204, R205: SLT and SLTU. -/
def Obligations.SltSltuResults : Prop :=
  ∀ (s : State) (rd rs1 rs2 : Reg),
    (∃ t v, exec (.slt rd rs1 rs2) s = .next t ∧ t.pc = s.pc + 4#32 ∧ WritesOnly rd v s t ∧
      v = (if (s.reg rs1).toInt < (s.reg rs2).toInt then 1#32 else 0#32) ∧
      EncodedBy 0xFE00707F#32 0x00002033#32 (.slt rd rs1 rs2)) ∧
    (∃ t v, exec (.sltu rd rs1 rs2) s = .next t ∧ t.pc = s.pc + 4#32 ∧ WritesOnly rd v s t ∧
      v = (if (s.reg rs1).toNat < (s.reg rs2).toNat then 1#32 else 0#32) ∧
      EncodedBy 0xFE00707F#32 0x00003033#32 (.sltu rd rs1 rs2))

/-- R206, R209, R210: XOR, OR, AND bit by bit. -/
def Obligations.XorOrAndResults : Prop :=
  ∀ (s : State) (rd rs1 rs2 : Reg),
    let a := s.reg rs1
    let b := s.reg rs2
    (∃ t v, exec (.xor rd rs1 rs2) s = .next t ∧ t.pc = s.pc + 4#32 ∧ WritesOnly rd v s t ∧
      (∀ j, j < 32 → v.getLsbD j = (a.getLsbD j ^^ b.getLsbD j)) ∧
      EncodedBy 0xFE00707F#32 0x00004033#32 (.xor rd rs1 rs2)) ∧
    (∃ t v, exec (.or rd rs1 rs2) s = .next t ∧ t.pc = s.pc + 4#32 ∧ WritesOnly rd v s t ∧
      (∀ j, j < 32 → v.getLsbD j = (a.getLsbD j || b.getLsbD j)) ∧
      EncodedBy 0xFE00707F#32 0x00006033#32 (.or rd rs1 rs2)) ∧
    (∃ t v, exec (.and rd rs1 rs2) s = .next t ∧ t.pc = s.pc + 4#32 ∧ WritesOnly rd v s t ∧
      (∀ j, j < 32 → v.getLsbD j = (a.getLsbD j && b.getLsbD j)) ∧
      EncodedBy 0xFE00707F#32 0x00007033#32 (.and rd rs1 rs2))

/-- R203, R207, R208: SLL, SRL, SRA by the low five bits of `x[rs2]`. -/
def Obligations.SllSrlSraResults : Prop :=
  ∀ (s : State) (rd rs1 rs2 : Reg),
    let x := s.reg rs1
    let sh := (s.reg rs2).toNat % 32
    (∃ t v, exec (.sll rd rs1 rs2) s = .next t ∧ t.pc = s.pc + 4#32 ∧ WritesOnly rd v s t ∧
      v.toNat = x.toNat * 2 ^ sh % 2 ^ 32 ∧
      EncodedBy 0xFE00707F#32 0x00001033#32 (.sll rd rs1 rs2)) ∧
    (∃ t v, exec (.srl rd rs1 rs2) s = .next t ∧ t.pc = s.pc + 4#32 ∧ WritesOnly rd v s t ∧
      v.toNat = x.toNat / 2 ^ sh ∧
      EncodedBy 0xFE00707F#32 0x00005033#32 (.srl rd rs1 rs2)) ∧
    (∃ t v, exec (.sra rd rs1 rs2) s = .next t ∧ t.pc = s.pc + 4#32 ∧ WritesOnly rd v s t ∧
      v.toInt = x.toInt / 2 ^ sh ∧
      EncodedBy 0xFE00707F#32 0x40005033#32 (.sra rd rs1 rs2))

/-! ### Branches, jumps, upper immediate, system -/

/-- R221, R222: BEQ is taken exactly when the registers are equal, BNE exactly when they are not; the
target is the branch's own address plus the offset modulo 2^32; nothing but `pc` changes. -/
def Obligations.BeqBneResults : Prop :=
  ∀ (s : State) (rs1 rs2 : Reg) (offset : BitVec 13),
    let target := BitVec.ofInt 32 (s.pc.toNat + offset.toInt)
    (∃ t, exec (.beq rs1 rs2 offset) s = .next t ∧ OnlyPcMoves s t ∧
      t.pc = (if s.reg rs1 = s.reg rs2 then target else s.pc + 4#32)) ∧
    (∃ t, exec (.bne rs1 rs2 offset) s = .next t ∧ OnlyPcMoves s t ∧
      t.pc = (if s.reg rs1 = s.reg rs2 then s.pc + 4#32 else target)) ∧
    (offset.getLsbD 0 = false →
      EncodedBy 0x0000707F#32 0x00000063#32 (.beq rs1 rs2 offset) ∧
      EncodedBy 0x0000707F#32 0x00001063#32 (.bne rs1 rs2 offset))

/-- R223, R224: BLT and BGE compare signed. -/
def Obligations.BltBgeResults : Prop :=
  ∀ (s : State) (rs1 rs2 : Reg) (offset : BitVec 13),
    let target := BitVec.ofInt 32 (s.pc.toNat + offset.toInt)
    (∃ t, exec (.blt rs1 rs2 offset) s = .next t ∧ OnlyPcMoves s t ∧
      t.pc = (if (s.reg rs1).toInt < (s.reg rs2).toInt then target else s.pc + 4#32)) ∧
    (∃ t, exec (.bge rs1 rs2 offset) s = .next t ∧ OnlyPcMoves s t ∧
      t.pc = (if (s.reg rs1).toInt < (s.reg rs2).toInt then s.pc + 4#32 else target)) ∧
    (offset.getLsbD 0 = false →
      EncodedBy 0x0000707F#32 0x00004063#32 (.blt rs1 rs2 offset) ∧
      EncodedBy 0x0000707F#32 0x00005063#32 (.bge rs1 rs2 offset))

/-- R225, R226: BLTU and BGEU compare unsigned. -/
def Obligations.BltuBgeuResults : Prop :=
  ∀ (s : State) (rs1 rs2 : Reg) (offset : BitVec 13),
    let target := BitVec.ofInt 32 (s.pc.toNat + offset.toInt)
    (∃ t, exec (.bltu rs1 rs2 offset) s = .next t ∧ OnlyPcMoves s t ∧
      t.pc = (if (s.reg rs1).toNat < (s.reg rs2).toNat then target else s.pc + 4#32)) ∧
    (∃ t, exec (.bgeu rs1 rs2 offset) s = .next t ∧ OnlyPcMoves s t ∧
      t.pc = (if (s.reg rs1).toNat < (s.reg rs2).toNat then s.pc + 4#32 else target)) ∧
    (offset.getLsbD 0 = false →
      EncodedBy 0x0000707F#32 0x00006063#32 (.bltu rs1 rs2 offset) ∧
      EncodedBy 0x0000707F#32 0x00007063#32 (.bgeu rs1 rs2 offset))

/-- R120, R121: the three relations and the taken table. -/
def Obligations.BranchConditionUnitOutputs : Prop :=
  (∀ a b : Word, ((relations a b).equal = true ↔ a = b) ∧
    ((relations a b).lessThanSigned = true ↔ a.toInt < b.toInt) ∧
    ((relations a b).lessThanUnsigned = true ↔ a.toNat < b.toNat)) ∧
  ∀ r : Relations, branchTaken .beq r = r.equal ∧ branchTaken .bne r = !r.equal ∧
    branchTaken .blt r = r.lessThanSigned ∧ branchTaken .bge r = !r.lessThanSigned ∧
    branchTaken .bltu r = r.lessThanUnsigned ∧ branchTaken .bgeu r = !r.lessThanUnsigned

/-- R241: JAL links the address of the following instruction and goes to its own address plus the
offset; `rd = 0` is a plain jump. That a target of 2 modulo 4 completes is the spec's decision D28. -/
def Obligations.JalLinksAndJumps : Prop :=
  ∀ (s : State) (rd : Reg) (offset : BitVec 21),
    (∃ t, exec (.jal rd offset) s = .next t ∧ WritesOnly rd (s.pc + 4#32) s t ∧
      t.pc = BitVec.ofInt 32 (s.pc.toNat + offset.toInt)) ∧
    (offset.getLsbD 0 = false → EncodedBy 0x0000007F#32 0x0000006F#32 (.jal rd offset))

/-- R242: JALR decodes, then stops the engine with `UnimplementedControlPath`, whatever its fields and
the registers; that nothing is written is the spec's decisions D6 and D22 (R138, log 5). A word of its
opcode with another `funct3` does not decode. -/
def Obligations.JalrIsFatal : Prop :=
  (∀ (s : State) (rd rs1 : Reg) (imm : BitVec 12),
    (∃ t, exec (.jalr rd rs1 imm) s = .next t ∧
      StopsAs .faulted (.fatal .unimplementedControlPath) s t) ∧
    EncodedBy 0x0000707F#32 0x00000067#32 (.jalr rd rs1 imm)) ∧
  ∀ w : Word, opcodeOf w = 0b1100111#7 → funct3Of w ≠ 0b000#3 → decode w = .error .unresolved

/-- R250, R251, R252: LUI writes the field times 2^12, AUIPC adds it to its own address. -/
def Obligations.LuiAuipcResults : Prop :=
  ∀ (s : State) (rd : Reg) (imm20 : BitVec 20),
    (∃ t v, exec (.lui rd imm20) s = .next t ∧ t.pc = s.pc + 4#32 ∧ WritesOnly rd v s t ∧
      v.toNat = imm20.toNat * 2 ^ 12 ∧ EncodedBy 0x0000007F#32 0x00000037#32 (.lui rd imm20)) ∧
    (∃ t v, exec (.auipc rd imm20) s = .next t ∧ t.pc = s.pc + 4#32 ∧ WritesOnly rd v s t ∧
      v.toNat = (s.pc.toNat + imm20.toNat * 2 ^ 12) % 2 ^ 32 ∧
      EncodedBy 0x0000007F#32 0x00000017#32 (.auipc rd imm20))

/-- R261, R137: an ECALL with x10 equal to 0 or 10 halts. That `pc` keeps the ECALL's address is the
spec's decision D24, that no field is examined D9. -/
def Obligations.EcallHaltsOnCodesZeroAndTen : Prop :=
  ∀ (s : State) (rd rs1 : Reg) (imm : BitVec 12),
    s.reg 10#5 = 0x00000000#32 ∨ s.reg 10#5 = 0x0000000A#32 →
    ∃ t, exec (.ecall rd rs1 imm) s = .next t ∧ StopsAs .halted (.halt .ecallHalt) s t

/-- R261, R262: an ECALL with any other full 32-bit code goes on at `pc + 4` with no register or memory
change (for codes other than 1 the spec's decision D7); code 1 raises one print request, which the
model counts (log 7). -/
def Obligations.EcallGoesOnOtherwise : Prop :=
  ∀ (s : State) (rd rs1 : Reg) (imm : BitVec 12),
    s.reg 10#5 ≠ 0x00000000#32 → s.reg 10#5 ≠ 0x0000000A#32 →
    ∃ t, exec (.ecall rd rs1 imm) s = .next t ∧ t.pc = s.pc + 4#32 ∧ RegsKept s t ∧ MemKept s t ∧
      GoesOn s t ∧
      t.printRequests = s.printRequests + (if s.reg 10#5 = 0x00000001#32 then 1 else 0)

/-- R131, R142: every instruction answers a next state in every state; none ends the model. -/
def Obligations.EveryInstructionAnswersANextState : Prop :=
  ∀ (i : Instr) (s : State), ∃ t, exec i s = .next t

/-! ### Frames -/

/-- R22, R113, R139: an instruction with a destination register changes no other register, no byte of
memory, no launch parameter and no print count, whether it goes on or stops; x0 still reads 0. That a
load's fatal stop keeps them is the spec's decision D22 (R138, log 5). -/
def Obligations.FrameOfRegisterWriters : Prop :=
  ∀ (i : Instr) (rd : Reg) (s t : State), Instr.dest i = some rd → exec i s = .next t →
    RegsKeptBut rd s t ∧ t.reg 0#5 = 0#32 ∧ MemKept s t ∧ t.launch = s.launch ∧
      t.printRequests = s.printRequests ∧
      (t.run = .running → s.run = .running → t.stopReason = s.stopReason)

/-- R170, R46: a store changes no register and no byte outside the bytes it stores at its effective
address, whether it goes on or stops. What a fatal stop keeps is the spec's decision D22 (R138, log 5). -/
def Obligations.FrameOfStores : Prop :=
  ∀ (s t : State) (rs2 rs1 : Reg) (imm : BitVec 12) (i : Instr) (n : Nat),
    (i, n) ∈ [(Instr.sb rs2 rs1 imm, 1), (.sh rs2 rs1 imm, 2), (.sw rs2 rs1 imm, 4)] →
    exec i s = .next t →
    RegsKept s t ∧ MemKeptBut (effAddr s rs1 imm).toNat n s t ∧ t.launch = s.launch ∧
      t.printRequests = s.printRequests

/-- R220, R242, R261: a branch, JALR and ECALL change no register and no byte of memory, and only ECALL
the print count. That JALR's fatal stop keeps them is the spec's decisions D6 and D22 (R138, log 5), what
an ECALL halt keeps R137. -/
def Obligations.FrameOfControlTransfers : Prop :=
  ∀ (i : Instr) (s t : State), exec i s = .next t →
    ((∃ rs1 rs2 o, i ∈ [Instr.beq rs1 rs2 o, .bne rs1 rs2 o, .blt rs1 rs2 o, .bge rs1 rs2 o,
        .bltu rs1 rs2 o, .bgeu rs1 rs2 o]) ∨ (∃ rd rs1 imm, i = .jalr rd rs1 imm) →
      RegsKept s t ∧ MemKept s t ∧ t.launch = s.launch ∧ t.printRequests = s.printRequests) ∧
    ((∃ rd rs1 imm, i = .ecall rd rs1 imm) → RegsKept s t ∧ MemKept s t ∧ t.launch = s.launch)

/-! ### The engine -/

/-- R131 to R133, R140: in RUNNING, when the word at an aligned mapped `pc` not above `PC_MAX` decodes,
the step is the instruction's meaning at that very state; the meaning itself moves `pc`. -/
def Obligations.StepRunsTheDecodedInstruction : Prop :=
  ∀ (s : State) (i : Instr), s.launch.ok = true → s.run = .running →
    s.pc.toNat ≤ s.launch.pcMax.toNat → s.pc.toNat % 4 = 0 → s.launch.mapped s.pc.toNat = true →
    decode (s.mem.word s.pc.toNat) = .ok i → step s = exec i s

/-- How a word comes to be fetched (log 4): a word put at `pc` by the loader's stand-in is the one the
next step runs, and putting it there changes no other byte and no other field of the state. -/
def Obligations.PlacedWordIsRunNext : Prop :=
  ∀ (s : State) (nbits w : Nat) (i : Instr),
    let p := s.withFetchWord nbits w
    s.launch.ok = true → s.run = .running → s.pc.toNat ≤ s.launch.pcMax.toNat → s.pc.toNat % 4 = 0 →
    s.launch.mapped s.pc.toNat = true → decodeTableWord nbits w = some i →
    step p = exec i p ∧ p.pc = s.pc ∧ RegsKept s p ∧ MemKeptBut s.pc.toNat 4 s p ∧ GoesOn s p ∧
      p.printRequests = s.printRequests

/-- R132, R44, R278 (the spec's decisions D5, D12, D15, D16, D26): the stop checks of a tick in their
order, each with what it leaves (after a fatal one its decision D22, R138, log 5). -/
def Obligations.StopChecksInOrder : Prop :=
  ∀ s : State, s.launch.ok = true → s.run = .running →
    let pc := s.pc.toNat
    let l := s.launch
    let mapped := l.memBase ≤ pc ∧ pc + 3 < l.memBase + 4 * l.memWords
    let stops := fun (r : RunState) (reason : StopReason) => ∃ t, step s = .next t ∧ StopsAs r reason s t
    (l.pcMax.toNat < pc → stops .halted (.halt .pcRange)) ∧
    (pc ≤ l.pcMax.toNat → pc % 4 ≠ 0 → stops .faulted (.fatal .fetchMisaligned)) ∧
    (pc ≤ l.pcMax.toNat → pc % 4 = 0 → ¬ mapped → stops .faulted (.fatal .fetchOutOfRange)) ∧
    (pc ≤ l.pcMax.toNat → pc % 4 = 0 → mapped → s.mem.word pc = 0x00000000#32 →
      stops .halted (.halt .sentinel)) ∧
    (pc ≤ l.pcMax.toNat → pc % 4 = 0 → mapped → s.mem.word pc ≠ 0x00000000#32 →
      decode (s.mem.word pc) = .error .unresolved → stops .faulted (.fatal .decodeError))

/-- R138, R271 (the spec's decision D22, log 5): a step into FAULTED names a kind and changes nothing but
the run state and the stop reason. -/
def Obligations.FatalStopCancelsEveryWrite : Prop :=
  ∀ s t : State, s.run = .running → step s = .next t → t.run = .faulted →
    ∃ k, StopsAs .faulted (.fatal k) s t

/-- R137: a step into HALTED has one of the three reasons and changes nothing but the run state and the
stop reason (`pc` of an ECALL halt: the spec's decision D24). -/
def Obligations.NormalHaltKeepsTheState : Prop :=
  ∀ s t : State, s.run = .running → step s = .next t → t.run = .halted →
    ∃ r, StopsAs .halted (.halt r) s t

/-- R130: no tick exists in HALTED or FAULTED; that the model answers a fault there is log 5. -/
def Obligations.TerminalStatesHaveNoStep : Prop :=
  ∀ s : State, s.launch.ok = true →
    (s.run = .halted → step s = .fault .halted) ∧ (s.run = .faulted → step s = .fault .faulted)

/-- R27, R301: RESET goes to RUNNING and RUNNING to RUNNING, HALTED or FAULTED, nothing goes to RESET,
and no step changes a launch parameter (FAULTED: the spec's decision D22). -/
def Obligations.RunStateTransitions : Prop :=
  ∀ s t : State, step s = .next t →
    (s.run = .reset ∧ t.run = .running ∨
      s.run = .running ∧ (t.run = .running ∨ t.run = .halted ∨ t.run = .faulted)) ∧
    t.launch = s.launch

/-- The invariant (10_state.md R23, R26, R28, R31): every step keeps the cell of x0 at 0, memory in its
one form and inside the mapped region, `pc` even, and a stop reason that fits the run state. -/
def Obligations.StepKeepsTheInvariant : Prop :=
  ∀ s t : State, s.Inv → step s = .next t → t.Inv

/-- R10: the termination signal. In a state that keeps the invariant it is normal exactly with a halt
reason, fatal exactly with a fatal kind, and absent while the engine runs. -/
def Obligations.TerminationSignalTellsTheStop : Prop :=
  ∀ s : State, s.Inv →
    (s.termination = some .normal ↔ ∃ r, s.stopReason = some (.halt r)) ∧
    (s.termination = some .fatal ↔ ∃ k, s.stopReason = some (.fatal k)) ∧
    (s.termination = none ↔ s.stopReason = none)

/-- The invariant holds after reset of every launch within the constraints, and in State.reset. -/
def Obligations.ResetHasTheInvariant : Prop :=
  (∀ l : Launch, l.ok = true → (State.resetOf l).Inv) ∧ State.reset.Inv

/-- R29: the state after reset, for every launch (which register is the stack pointer: the spec's
decision D4; the launch itself: D2, D17; the image's bytes: log 3). -/
def Obligations.ResetValues : Prop :=
  ∀ l : Launch,
    let s := State.resetOf l
    s.reg 2#5 = l.spReset ∧ (∀ r, r ≠ 2#5 → s.reg r = 0#32) ∧ s.pc = l.pcReset ∧
      (∀ a, s.mem.read a = l.image.read a) ∧ s.run = .running ∧ s.stopReason = none ∧ s.launch = l

/-- R300, R130: a step in RESET executes no instruction and leaves the state of R29 in RUNNING, which
the model takes as one step (log 8). -/
def Obligations.ResetStateStepsToRunning : Prop :=
  ∀ s : State, s.launch.ok = true → s.run = .reset → step s = .next (State.resetOf s.launch)

/-- R8, R302: a launch that breaks a constraint is refused, and the constraints are these (of the image:
log 6). -/
def Obligations.LaunchOutsideTheConstraintsIsRefused : Prop :=
  (∀ l : Launch, l.ok = true ↔
    (l.memBase % 4 = 0 ∧ l.memBase + 4 * l.memWords ≤ 2 ^ 32 ∧ l.dataBase % 4 = 0 ∧
      l.dataLimit % 4 = 0 ∧ l.memBase ≤ l.dataBase ∧ l.dataBase ≤ l.dataLimit ∧
      l.dataLimit ≤ l.memBase + 4 * l.memWords ∧ l.pcReset.toNat % 4 = 0 ∧ l.image.wf = true ∧
      ∀ c ∈ l.image, l.memBase ≤ c.1 ∧ c.1 < l.memBase + 4 * l.memWords)) ∧
  ∀ s : State, s.launch.ok = false → step s = .refused .launchOutsideSpec

/-- R276, R273, R110, R114 (which the spec derives): no step stops with `InvalidRegisterIndex`, and no
row of the control table selects the trap path or the reserved write-back. -/
def Obligations.UnreachableFatalCausesNeverArise : Prop :=
  (∀ s t : State, step s = .next t → s.stopReason ≠ some (.fatal .invalidRegisterIndex) →
    t.stopReason ≠ some (.fatal .invalidRegisterIndex)) ∧
  ∀ m : Mnemonic, (signalsFor m).pcSelect ≠ .trap ∧ (signalsFor m).writebackSelect ≠ .reserved

/-- R140: the tick through the record, the control table, the ALU, the branch condition unit, the memory
port and the write-back multiplexer is the tick of the closed forms (the control table is the spec's
decision D19). -/
def Obligations.DatapathTickIsTheTick : Prop :=
  ∀ s : State, datapathTick s = tick s

/-- R22: at most one register is written in a tick. That a fatal stop writes none is the spec's decision
D22 (R138, log 5). -/
def Obligations.AtMostOneRegisterWrittenPerTick : Prop :=
  ∀ s t : State, s.run = .running → step s = .next t → ∃ rd, RegsKeptBut rd s t

/-- R23 (the spec's decision D3; that a read gives zero whatever the cell holds: log 9): a write of x0
changes nothing, x0 reads 0, and a register written reads as written. -/
def Obligations.RegisterZeroIsHardWired : Prop :=
  ∀ (s : State) (v : Word), s.setReg 0#5 v = s ∧ s.reg 0#5 = 0#32 ∧
    ∀ r r' : Reg, (s.setReg r v).reg r' =
      if r' = 0#5 then 0#32 else if r' = r then v else s.reg r'

/-- R25, R135: a tick that goes on leaves `pc` at `pc + 4`, or at the branch target of a fetched branch
word, or at the jump target of a fetched JAL word. -/
def Obligations.NextPcIsSequentialOrATarget : Prop :=
  ∀ s t : State, s.run = .running → step s = .next t → t.run = .running →
    let w := s.mem.word s.pc.toNat
    t.pc = s.pc + 4#32 ∨ (opcodeOf w = 0b1100011#7 ∧ t.pc = brTarget w s.pc) ∨
      (opcodeOf w = 0b1101111#7 ∧ t.pc = jmpTarget w s.pc)

/-! ### Memory -/

/-- R47 (general knowledge the spec supplies, and its decision D10): the byte at an address is lane
`a mod 4` of the word that contains it. -/
def Obligations.BytesAreLittleEndianLanes : Prop :=
  ∀ (m : Memory) (a : Nat), (m.read a).toNat = lanes (m.word (a / 4 * 4)) (a % 4) 1

/-- R45, R46, R50: after a write that passes its checks, a read of the same address and width gives the
low bits written, and a read of bytes it did not write gives what it gave before. -/
def Obligations.ReadAfterWrite : Prop :=
  ∀ (s : State) (a : Word) (n : Width) (v : Word) (m : Memory), memWrite s a n v = .ok m →
    memRead (s.setMem m) a n = .ok (BitVec.ofNat 32 (v.toNat % 2 ^ (8 * n.bytes))) ∧
    ∀ (b : Word) (k : Width), b.toNat + k.bytes ≤ a.toNat ∨ a.toNat + n.bytes ≤ b.toNat →
      memRead (s.setMem m) b k = memRead s b k

/-- R53 (the spec's decision D14): a word stored at the address of the next fetch is the instruction
the next step runs. -/
def Obligations.StoredWordIsFetchedNext : Prop :=
  ∀ (s t : State) (rs2 rs1 : Reg) (imm : BitVec 12) (i : Instr),
    s.launch.ok = true → s.run = .running → exec (.sw rs2 rs1 imm) s = .next t → t.run = .running →
    t.pc = effAddr s rs1 imm → t.pc.toNat ≤ s.launch.pcMax.toNat → decode (s.reg rs2) = .ok i →
    step t = exec i t

/-- R53, R46 (the spec's decisions D13, D14): no step in RUNNING changes a byte outside the data
segment, so code kept outside it stays as it is. That a fatal stop changes none is its decision D22
(R138, log 5). -/
def Obligations.BytesOutsideTheDataSegmentNeverChange : Prop :=
  ∀ s t : State, s.run = .running → step s = .next t →
    ∀ a, ¬ (s.launch.dataBase ≤ a ∧ a < s.launch.dataLimit) → t.mem.read a = s.mem.read a
end

