-- ==== Sys2Proof/Laws/Encoding.lean ====
section
/-! SUPPORT. The fields of an encoded word and a word put together again from its fields
(30_encoding.md R63), bit by bit. -/

namespace Sys2Proof

/-- The bits of a field put in its place. -/
theorem getLsbD_placeAt (n k : Nat) {m : Nat} (v : BitVec m) (j : Nat) :
    (placeAt n k v).getLsbD j = (decide (j < n) && !decide (j < k) && v.getLsbD (j - k)) := by
  simp only [placeAt, BitVec.getLsbD_shiftLeft, BitVec.getLsbD_setWidth]
  by_cases h : j < n
  · simp [h, show j - k < n by omega]
  · simp [h]

/-! ### R-type -/

@[simp] theorem opcodeOf_encodeR (f7 : BitVec 7) (b a : Reg) (f3 : BitVec 3) (rd : Reg) (op : BitVec 7) :
    opcodeOf (encodeR f7 b a f3 rd op) = op := by
  refine BitVec.eq_of_getLsbD_eq fun i hi => ?_
  simp only [opcodeOf, encodeR, BitVec.getLsbD_extractLsb', BitVec.getLsbD_or, getLsbD_placeAt]
  interval_cases i <;> simp

@[simp] theorem rdOf_encodeR (f7 : BitVec 7) (b a : Reg) (f3 : BitVec 3) (rd : Reg) (op : BitVec 7) :
    rdOf (encodeR f7 b a f3 rd op) = rd := by
  refine BitVec.eq_of_getLsbD_eq fun i hi => ?_
  simp only [rdOf, encodeR, BitVec.getLsbD_extractLsb', BitVec.getLsbD_or, getLsbD_placeAt]
  interval_cases i <;> simp

@[simp] theorem funct3Of_encodeR (f7 : BitVec 7) (b a : Reg) (f3 : BitVec 3) (rd : Reg) (op : BitVec 7) :
    funct3Of (encodeR f7 b a f3 rd op) = f3 := by
  refine BitVec.eq_of_getLsbD_eq fun i hi => ?_
  simp only [funct3Of, encodeR, BitVec.getLsbD_extractLsb', BitVec.getLsbD_or, getLsbD_placeAt]
  interval_cases i <;> simp

@[simp] theorem rs1Of_encodeR (f7 : BitVec 7) (b a : Reg) (f3 : BitVec 3) (rd : Reg) (op : BitVec 7) :
    rs1Of (encodeR f7 b a f3 rd op) = a := by
  refine BitVec.eq_of_getLsbD_eq fun i hi => ?_
  simp only [rs1Of, encodeR, BitVec.getLsbD_extractLsb', BitVec.getLsbD_or, getLsbD_placeAt]
  interval_cases i <;> simp

@[simp] theorem rs2Of_encodeR (f7 : BitVec 7) (b a : Reg) (f3 : BitVec 3) (rd : Reg) (op : BitVec 7) :
    rs2Of (encodeR f7 b a f3 rd op) = b := by
  refine BitVec.eq_of_getLsbD_eq fun i hi => ?_
  simp only [rs2Of, encodeR, BitVec.getLsbD_extractLsb', BitVec.getLsbD_or, getLsbD_placeAt]
  interval_cases i <;> simp

@[simp] theorem shamtOf_encodeR (f7 : BitVec 7) (b a : Reg) (f3 : BitVec 3) (rd : Reg) (op : BitVec 7) :
    shamtOf (encodeR f7 b a f3 rd op) = b := by
  refine BitVec.eq_of_getLsbD_eq fun i hi => ?_
  simp only [shamtOf, encodeR, BitVec.getLsbD_extractLsb', BitVec.getLsbD_or, getLsbD_placeAt]
  interval_cases i <;> simp

@[simp] theorem funct7Of_encodeR (f7 : BitVec 7) (b a : Reg) (f3 : BitVec 3) (rd : Reg) (op : BitVec 7) :
    funct7Of (encodeR f7 b a f3 rd op) = f7 := by
  refine BitVec.eq_of_getLsbD_eq fun i hi => ?_
  simp only [funct7Of, encodeR, BitVec.getLsbD_extractLsb', BitVec.getLsbD_or, getLsbD_placeAt]
  interval_cases i <;> simp

/-! ### I-type -/

@[simp] theorem opcodeOf_encodeI (imm : BitVec 12) (a : Reg) (f3 : BitVec 3) (rd : Reg) (op : BitVec 7) :
    opcodeOf (encodeI imm a f3 rd op) = op := by
  refine BitVec.eq_of_getLsbD_eq fun i hi => ?_
  simp only [opcodeOf, encodeI, BitVec.getLsbD_extractLsb', BitVec.getLsbD_or, getLsbD_placeAt]
  interval_cases i <;> simp

@[simp] theorem rdOf_encodeI (imm : BitVec 12) (a : Reg) (f3 : BitVec 3) (rd : Reg) (op : BitVec 7) :
    rdOf (encodeI imm a f3 rd op) = rd := by
  refine BitVec.eq_of_getLsbD_eq fun i hi => ?_
  simp only [rdOf, encodeI, BitVec.getLsbD_extractLsb', BitVec.getLsbD_or, getLsbD_placeAt]
  interval_cases i <;> simp

@[simp] theorem funct3Of_encodeI (imm : BitVec 12) (a : Reg) (f3 : BitVec 3) (rd : Reg) (op : BitVec 7) :
    funct3Of (encodeI imm a f3 rd op) = f3 := by
  refine BitVec.eq_of_getLsbD_eq fun i hi => ?_
  simp only [funct3Of, encodeI, BitVec.getLsbD_extractLsb', BitVec.getLsbD_or, getLsbD_placeAt]
  interval_cases i <;> simp

@[simp] theorem rs1Of_encodeI (imm : BitVec 12) (a : Reg) (f3 : BitVec 3) (rd : Reg) (op : BitVec 7) :
    rs1Of (encodeI imm a f3 rd op) = a := by
  refine BitVec.eq_of_getLsbD_eq fun i hi => ?_
  simp only [rs1Of, encodeI, BitVec.getLsbD_extractLsb', BitVec.getLsbD_or, getLsbD_placeAt]
  interval_cases i <;> simp

@[simp] theorem immIField_encodeI (imm : BitVec 12) (a : Reg) (f3 : BitVec 3) (rd : Reg) (op : BitVec 7) :
    immIField (encodeI imm a f3 rd op) = imm := by
  refine BitVec.eq_of_getLsbD_eq fun i hi => ?_
  simp only [immIField, encodeI, BitVec.getLsbD_extractLsb', BitVec.getLsbD_or, getLsbD_placeAt]
  interval_cases i <;> simp

/-! ### S-type -/

@[simp] theorem opcodeOf_encodeS (imm : BitVec 12) (b a : Reg) (f3 : BitVec 3) (op : BitVec 7) :
    opcodeOf (encodeS imm b a f3 op) = op := by
  refine BitVec.eq_of_getLsbD_eq fun i hi => ?_
  simp only [opcodeOf, encodeS, BitVec.getLsbD_extractLsb', BitVec.getLsbD_or, getLsbD_placeAt]
  interval_cases i <;> simp

@[simp] theorem funct3Of_encodeS (imm : BitVec 12) (b a : Reg) (f3 : BitVec 3) (op : BitVec 7) :
    funct3Of (encodeS imm b a f3 op) = f3 := by
  refine BitVec.eq_of_getLsbD_eq fun i hi => ?_
  simp only [funct3Of, encodeS, BitVec.getLsbD_extractLsb', BitVec.getLsbD_or, getLsbD_placeAt]
  interval_cases i <;> simp

@[simp] theorem rs1Of_encodeS (imm : BitVec 12) (b a : Reg) (f3 : BitVec 3) (op : BitVec 7) :
    rs1Of (encodeS imm b a f3 op) = a := by
  refine BitVec.eq_of_getLsbD_eq fun i hi => ?_
  simp only [rs1Of, encodeS, BitVec.getLsbD_extractLsb', BitVec.getLsbD_or, getLsbD_placeAt]
  interval_cases i <;> simp

@[simp] theorem rs2Of_encodeS (imm : BitVec 12) (b a : Reg) (f3 : BitVec 3) (op : BitVec 7) :
    rs2Of (encodeS imm b a f3 op) = b := by
  refine BitVec.eq_of_getLsbD_eq fun i hi => ?_
  simp only [rs2Of, encodeS, BitVec.getLsbD_extractLsb', BitVec.getLsbD_or, getLsbD_placeAt]
  interval_cases i <;> simp

@[simp] theorem immSField_encodeS (imm : BitVec 12) (b a : Reg) (f3 : BitVec 3) (op : BitVec 7) :
    immSField (encodeS imm b a f3 op) = imm := by
  refine BitVec.eq_of_getLsbD_eq fun i hi => ?_
  simp only [immSField, encodeS, BitVec.getLsbD_extractLsb', BitVec.getLsbD_or, getLsbD_placeAt]
  interval_cases i <;> simp

/-! ### SB-type -/

@[simp] theorem opcodeOf_encodeSB (o : BitVec 13) (b a : Reg) (f3 : BitVec 3) (op : BitVec 7) :
    opcodeOf (encodeSB o b a f3 op) = op := by
  refine BitVec.eq_of_getLsbD_eq fun i hi => ?_
  simp only [opcodeOf, encodeSB, BitVec.getLsbD_extractLsb', BitVec.getLsbD_or, getLsbD_placeAt]
  interval_cases i <;> simp

@[simp] theorem funct3Of_encodeSB (o : BitVec 13) (b a : Reg) (f3 : BitVec 3) (op : BitVec 7) :
    funct3Of (encodeSB o b a f3 op) = f3 := by
  refine BitVec.eq_of_getLsbD_eq fun i hi => ?_
  simp only [funct3Of, encodeSB, BitVec.getLsbD_extractLsb', BitVec.getLsbD_or, getLsbD_placeAt]
  interval_cases i <;> simp

@[simp] theorem rs1Of_encodeSB (o : BitVec 13) (b a : Reg) (f3 : BitVec 3) (op : BitVec 7) :
    rs1Of (encodeSB o b a f3 op) = a := by
  refine BitVec.eq_of_getLsbD_eq fun i hi => ?_
  simp only [rs1Of, encodeSB, BitVec.getLsbD_extractLsb', BitVec.getLsbD_or, getLsbD_placeAt]
  interval_cases i <;> simp

@[simp] theorem rs2Of_encodeSB (o : BitVec 13) (b a : Reg) (f3 : BitVec 3) (op : BitVec 7) :
    rs2Of (encodeSB o b a f3 op) = b := by
  refine BitVec.eq_of_getLsbD_eq fun i hi => ?_
  simp only [rs2Of, encodeSB, BitVec.getLsbD_extractLsb', BitVec.getLsbD_or, getLsbD_placeAt]
  interval_cases i <;> simp

/-! ### U-type -/

@[simp] theorem opcodeOf_encodeU (imm : BitVec 20) (rd : Reg) (op : BitVec 7) :
    opcodeOf (encodeU imm rd op) = op := by
  refine BitVec.eq_of_getLsbD_eq fun i hi => ?_
  simp only [opcodeOf, encodeU, BitVec.getLsbD_extractLsb', BitVec.getLsbD_or, getLsbD_placeAt]
  interval_cases i <;> simp

@[simp] theorem rdOf_encodeU (imm : BitVec 20) (rd : Reg) (op : BitVec 7) :
    rdOf (encodeU imm rd op) = rd := by
  refine BitVec.eq_of_getLsbD_eq fun i hi => ?_
  simp only [rdOf, encodeU, BitVec.getLsbD_extractLsb', BitVec.getLsbD_or, getLsbD_placeAt]
  interval_cases i <;> simp

@[simp] theorem immUField_encodeU (imm : BitVec 20) (rd : Reg) (op : BitVec 7) :
    immUField (encodeU imm rd op) = imm := by
  refine BitVec.eq_of_getLsbD_eq fun i hi => ?_
  simp only [immUField, encodeU, BitVec.getLsbD_extractLsb', BitVec.getLsbD_or, getLsbD_placeAt]
  interval_cases i <;> simp

/-! ### UJ-type -/

@[simp] theorem opcodeOf_encodeUJ (o : BitVec 21) (rd : Reg) (op : BitVec 7) :
    opcodeOf (encodeUJ o rd op) = op := by
  refine BitVec.eq_of_getLsbD_eq fun i hi => ?_
  simp only [opcodeOf, encodeUJ, BitVec.getLsbD_extractLsb', BitVec.getLsbD_or, getLsbD_placeAt]
  interval_cases i <;> simp

@[simp] theorem rdOf_encodeUJ (o : BitVec 21) (rd : Reg) (op : BitVec 7) :
    rdOf (encodeUJ o rd op) = rd := by
  refine BitVec.eq_of_getLsbD_eq fun i hi => ?_
  simp only [rdOf, encodeUJ, BitVec.getLsbD_extractLsb', BitVec.getLsbD_or, getLsbD_placeAt]
  interval_cases i <;> simp

/-- An even offset comes back whole. -/
theorem immSBField_encodeSB (o : BitVec 13) (b a : Reg) (f3 : BitVec 3) (op : BitVec 7) (h : o.getLsbD 0 = false) :
    immSBField (encodeSB o b a f3 op) = o := by
  refine BitVec.eq_of_getLsbD_eq fun i hi => ?_
  simp only [immSBField, encodeSB, BitVec.getLsbD_extractLsb', BitVec.getLsbD_or, getLsbD_placeAt]
  interval_cases i
  · simpa using h
  all_goals simp

/-- The generator's bit 0 is always 0. -/
theorem immSBField_even (w : Word) : (immSBField w).getLsbD 0 = false := by
  simp [immSBField, placeAt]

/-- An even offset comes back whole. -/
theorem immUJField_encodeUJ (o : BitVec 21) (rd : Reg) (op : BitVec 7) (h : o.getLsbD 0 = false) :
    immUJField (encodeUJ o rd op) = o := by
  refine BitVec.eq_of_getLsbD_eq fun i hi => ?_
  simp only [immUJField, encodeUJ, BitVec.getLsbD_extractLsb', BitVec.getLsbD_or, getLsbD_placeAt]
  interval_cases i
  · simpa using h
  all_goals simp

/-- The generator's bit 0 is always 0. -/
theorem immUJField_even (w : Word) : (immUJField w).getLsbD 0 = false := by
  simp [immUJField, placeAt]

/-! ### A word from its fields -/

theorem encodeR_fields (w : Word) :
    encodeR (funct7Of w) (rs2Of w) (rs1Of w) (funct3Of w) (rdOf w) (opcodeOf w) = w := by
  refine BitVec.eq_of_getLsbD_eq fun i hi => ?_
  simp only [encodeR, funct3Of, funct7Of, opcodeOf, rdOf, rs1Of, rs2Of,
    BitVec.getLsbD_extractLsb', BitVec.getLsbD_or, getLsbD_placeAt]
  interval_cases i <;> simp

theorem encodeI_fields (w : Word) :
    encodeI (immIField w) (rs1Of w) (funct3Of w) (rdOf w) (opcodeOf w) = w := by
  refine BitVec.eq_of_getLsbD_eq fun i hi => ?_
  simp only [encodeI, funct3Of, immIField, opcodeOf, rdOf, rs1Of,
    BitVec.getLsbD_extractLsb', BitVec.getLsbD_or, getLsbD_placeAt]
  interval_cases i <;> simp

theorem encodeS_fields (w : Word) :
    encodeS (immSField w) (rs2Of w) (rs1Of w) (funct3Of w) (opcodeOf w) = w := by
  refine BitVec.eq_of_getLsbD_eq fun i hi => ?_
  simp only [encodeS, funct3Of, immSField, opcodeOf, rs1Of, rs2Of,
    BitVec.getLsbD_extractLsb', BitVec.getLsbD_or, getLsbD_placeAt]
  interval_cases i <;> simp

theorem encodeSB_fields (w : Word) :
    encodeSB (immSBField w) (rs2Of w) (rs1Of w) (funct3Of w) (opcodeOf w) = w := by
  refine BitVec.eq_of_getLsbD_eq fun i hi => ?_
  simp only [encodeSB, funct3Of, immSBField, opcodeOf, rs1Of, rs2Of,
    BitVec.getLsbD_extractLsb', BitVec.getLsbD_or, getLsbD_placeAt]
  interval_cases i <;> simp

theorem encodeU_fields (w : Word) :
    encodeU (immUField w) (rdOf w) (opcodeOf w) = w := by
  refine BitVec.eq_of_getLsbD_eq fun i hi => ?_
  simp only [encodeU, immUField, opcodeOf, rdOf,
    BitVec.getLsbD_extractLsb', BitVec.getLsbD_or, getLsbD_placeAt]
  interval_cases i <;> simp

theorem encodeUJ_fields (w : Word) :
    encodeUJ (immUJField w) (rdOf w) (opcodeOf w) = w := by
  refine BitVec.eq_of_getLsbD_eq fun i hi => ?_
  simp only [encodeUJ, immUJField, opcodeOf, rdOf,
    BitVec.getLsbD_extractLsb', BitVec.getLsbD_or, getLsbD_placeAt]
  interval_cases i <;> simp

end Sys2Proof
end

