-- ==== Sys2Proof/Laws/Memory.lean ====
section
/-! SUPPORT. The laws of memory: read after write, a write leaves every other byte, and every
operation keeps the one form. No law of reading needs the form as a premise. -/

namespace Sys2Proof.Memory

variable (m : Memory)

/-! ### One byte -/

@[simp] theorem read_nil (a : Nat) : Memory.read [] a = unlistedByte := rfl

theorem read_cons (c : Host.Cell) (a : Nat) :
    Memory.read (c :: m) a = if c.1 = a then c.2 else Memory.read m a := rfl

theorem read_erase (a x : Nat) : (m.erase a).read x = if x = a then unlistedByte else m.read x := by
  induction m with
  | nil => simp [erase]
  | cons c m ih =>
    simp only [erase] at ih ⊢
    by_cases hc : c.1 = a
    · rw [List.filter_cons_of_neg (by simp [hc]), ih, read_cons]
      by_cases hx : x = a
      · simp [hx]
      · simp [hx, show ¬ c.1 = x from fun e => hx (e.symm.trans hc)]
    · rw [List.filter_cons_of_pos (by simp [hc]), read_cons, ih, read_cons]
      by_cases hx : x = a
      · simp [hx, hc]
      · simp [hx]

theorem read_insert (a : Nat) (b : Byte) (x : Nat) (h : ∀ c ∈ m, c.1 ≠ a) :
    (m.insert a b).read x = if x = a then b else m.read x := by
  induction m with
  | nil => simp only [insert, read_cons, eq_comm (a := x)]
  | cons c m ih =>
    have hc : c.1 ≠ a := h c (by simp)
    simp only [insert]
    split
    · rw [read_cons]; simp only [eq_comm (a := x)]
    · rw [read_cons, ih (fun d hd => h d (by simp [hd])), read_cons]
      by_cases hx : x = a
      · simp [hx, hc]
      · simp [hx]

theorem erase_ne (a : Nat) : ∀ c ∈ m.erase a, c.1 ≠ a := by
  simp [erase]

/-- One byte written: it reads as written, every other byte as before. -/
theorem read_write (a : Nat) (b : Byte) (x : Nat) :
    (m.write a b).read x = if x = a then b else m.read x := by
  simp only [write]
  split
  · next h => rw [read_erase, h]
  · rw [read_insert _ _ _ _ (erase_ne m a), read_erase]
    split <;> simp_all

/-! ### Several bytes -/

/-- The bytes outside a write read as before. -/
theorem read_writeLE_outside (a n x : Nat) (v : Word) (h : x < a ∨ a + n ≤ x) :
    (m.writeLE a n v).read x = m.read x := by
  induction n generalizing m a v with
  | zero => rfl
  | succ n ih =>
    rw [writeLE, ih _ _ _ (by omega), read_write, if_neg (by omega)]

/-- Byte `k` of a write is byte `k` of the value (R47). -/
theorem read_writeLE_inside (a n k : Nat) (v : Word) (h : k < n) :
    (m.writeLE a n v).read (a + k) = (v >>> (8 * k)).setWidth 8 := by
  induction n generalizing m a v k with
  | zero => omega
  | succ n ih =>
    rw [writeLE]
    cases k with
    | zero => rw [read_writeLE_outside _ _ _ _ _ (by omega), read_write]; simp
    | succ k =>
      rw [show a + (k + 1) = (a + 1) + k by omega, ih _ _ _ _ (by omega), ← BitVec.shiftRight_add,
        show 8 + 8 * k = 8 * (k + 1) by omega]

/-- A read of several bytes depends on these bytes only. -/
theorem readLE_congr {m m' : Memory} (a n : Nat)
    (h : ∀ x, a ≤ x → x < a + n → m'.read x = m.read x) : m'.readLE a n = m.readLE a n := by
  induction n generalizing a with
  | zero => rfl
  | succ n ih =>
    rw [readLE, readLE, ih (a + 1) (fun x h1 h2 => h x (by omega) (by omega)), h a (by omega) (by omega)]

/-- Bit `j` of a read of up to four bytes is bit `j % 8` of byte `j / 8` (R47). -/
theorem getLsbD_readLE (a n j : Nat) (hn : n ≤ 4) :
    (m.readLE a n).getLsbD j = (decide (j < 8 * n) && (m.read (a + j / 8)).getLsbD (j % 8)) := by
  induction n generalizing a j with
  | zero => simp [readLE]
  | succ n ih =>
    rw [readLE, BitVec.getLsbD_or, BitVec.getLsbD_shiftLeft, ih _ _ (by omega), BitVec.getLsbD_setWidth]
    by_cases h8 : j < 8
    · have h1 : j / 8 = 0 := by omega
      have h2 : j % 8 = j := by omega
      simp [h8, h1, h2, show j < 32 by omega, show j < 8 * (n + 1) by omega]
    · have h1 : a + 1 + (j - 8) / 8 = a + j / 8 := by omega
      have h2 : (j - 8) % 8 = j % 8 := by omega
      have h3 : (m.read a).getLsbD j = false := BitVec.getLsbD_of_ge _ _ (by omega)
      rw [h1, h2, h3]
      by_cases hj : j < 8 * (n + 1)
      · simp [h8, hj, show j < 32 by omega, show j - 8 < 8 * n by omega]
      · simp [hj, show ¬ j - 8 < 8 * n by omega]

/-- Reading what was written, at the same address and width: the low bytes of the value. -/
theorem readLE_writeLE (a n : Nat) (v : Word) (hn : n ≤ 4) :
    (m.writeLE a n v).readLE a n = (BitVec.setWidth (8 * n) v).setWidth 32 := by
  ext j hj
  rw [BitVec.getElem_eq_testBit_toNat, BitVec.testBit_toNat, getLsbD_readLE _ _ _ _ hn]
  by_cases h : j < 8 * n
  · rw [read_writeLE_inside _ _ _ _ _ (show j / 8 < n by omega)]
    simp [h, hj, show j % 8 < 8 by omega, show 8 * (j / 8) + j % 8 = j by omega, BitVec.getLsbD_eq_getElem]
  · simp [h]

/-! ### The one form -/

theorem wf_nil : Memory.wf [] = true := rfl

theorem wf_cons (c : Host.Cell) :
    Memory.wf (c :: m) = true ↔
      c.2 ≠ unlistedByte ∧ (∀ d ∈ m, c.1 < d.1) ∧ Memory.wf m = true := by
  simp [wf, and_assoc]

theorem erase_wf (a : Nat) (h : m.wf = true) : (m.erase a).wf = true := by
  induction m with
  | nil => exact h
  | cons c m ih =>
    rw [wf_cons] at h
    have := ih h.2.2
    by_cases hc : c.1 = a
    · simpa [erase, hc] using this
    · have he : erase (c :: m) a = c :: Memory.erase m a := by simp [erase, hc]
      rw [he, wf_cons]
      exact ⟨h.1, fun d hd => h.2.1 d (List.mem_of_mem_filter hd), this⟩

theorem mem_insert (a : Nat) (b : Byte) (d : Host.Cell) : d ∈ m.insert a b → d = (a, b) ∨ d ∈ m := by
  induction m with
  | nil => simp [insert]
  | cons c m ih =>
    simp only [insert]
    split
    · simp
    · intro h
      rcases List.mem_cons.1 h with h | h
      · simp [h]
      · rcases ih h with h | h <;> simp [h]

theorem insert_wf (a : Nat) (b : Byte) (hb : b ≠ unlistedByte) (hne : ∀ c ∈ m, c.1 ≠ a)
    (h : m.wf = true) : (m.insert a b).wf = true := by
  induction m with
  | nil => simp [insert, wf, hb]
  | cons c m ih =>
    have hc := hne c (by simp)
    have h' := (wf_cons _ _).1 h
    simp only [insert]
    split
    · next hlt =>
      rw [wf_cons]
      refine ⟨hb, fun d hd => ?_, h⟩
      rcases List.mem_cons.1 hd with rfl | hd
      · exact hlt
      · exact Nat.lt_trans hlt (h'.2.1 d hd)
    · next hlt =>
      rw [wf_cons]
      refine ⟨h'.1, fun d hd => ?_, ih (fun e he => hne e (by simp [he])) h'.2.2⟩
      rcases mem_insert _ _ _ _ hd with rfl | hd
      · show c.1 < a; omega
      · exact h'.2.1 d hd

/-- A byte written keeps the one form. -/
theorem write_wf (a : Nat) (b : Byte) (h : m.wf = true) : (m.write a b).wf = true := by
  simp only [write]
  split
  · exact erase_wf m a h
  · next hb => exact insert_wf _ a b hb (erase_ne m a) (erase_wf m a h)

/-- A write of several bytes keeps the one form. -/
theorem writeLE_wf (a n : Nat) (v : Word) (h : m.wf = true) : (m.writeLE a n v).wf = true := by
  induction n generalizing m a v with
  | zero => exact h
  | succ n ih => exact ih _ _ _ (write_wf m a _ h)

/-- The memory after reset is in the one form. -/
theorem reset_mem_wf : Machine.State.reset.mem.wf = true := rfl

/-! ### Where the entries lie -/

theorem all_write (p : Nat → Bool) (a : Nat) (b : Byte) (hp : p a = true)
    (h : m.all (fun c => p c.1) = true) : (m.write a b).all (fun c => p c.1) = true := by
  rw [List.all_eq_true] at h ⊢
  intro d hd
  have key : d = (a, b) ∨ d ∈ m := by
    simp only [write] at hd
    split at hd
    · exact .inr (List.mem_of_mem_filter hd)
    · rcases mem_insert _ _ _ _ hd with h | h
      · exact .inl h
      · exact .inr (List.mem_of_mem_filter h)
  rcases key with rfl | hd
  · exact hp
  · exact h d hd

/-- A write of several bytes lists no address outside them that was not listed. -/
theorem all_writeLE (p : Nat → Bool) (a n : Nat) (v : Word)
    (hp : ∀ x, a ≤ x → x < a + n → p x = true) (h : m.all (fun c => p c.1) = true) :
    (m.writeLE a n v).all (fun c => p c.1) = true := by
  induction n generalizing m a v with
  | zero => exact h
  | succ n ih =>
    exact ih _ _ _ (fun x h1 h2 => hp x (by omega) (by omega))
      (all_write m p a _ (hp a (by omega) (by omega)) h)

end Sys2Proof.Memory
end

