-- ==== Sys2Proof/Laws/State.lean ====
section
/-! SUPPORT. One lemma for each field of State and each update, so that no later proof unfolds a record
update. -/

namespace Sys2Proof.Machine.State

variable (s : State)

/-! ### setReg -/

@[simp] theorem setReg_launch (i : Reg) (v : Word) : (s.setReg i v).launch = s.launch := rfl
@[simp] theorem setReg_regs (i : Reg) (v : Word) : (s.setReg i v).regs = if i = 0#5 then s.regs else s.regs.set i.toNat v i.isLt := rfl
@[simp] theorem setReg_pc (i : Reg) (v : Word) : (s.setReg i v).pc = s.pc := rfl
@[simp] theorem setReg_mem (i : Reg) (v : Word) : (s.setReg i v).mem = s.mem := rfl
@[simp] theorem setReg_run (i : Reg) (v : Word) : (s.setReg i v).run = s.run := rfl
@[simp] theorem setReg_stopReason (i : Reg) (v : Word) : (s.setReg i v).stopReason = s.stopReason := rfl
@[simp] theorem setReg_printRequests (i : Reg) (v : Word) : (s.setReg i v).printRequests = s.printRequests := rfl

/-! ### setPc -/

@[simp] theorem setPc_launch (t : Word) : (s.setPc t).launch = s.launch := rfl
@[simp] theorem setPc_regs (t : Word) : (s.setPc t).regs = s.regs := rfl
@[simp] theorem setPc_pc (t : Word) : (s.setPc t).pc = t := rfl
@[simp] theorem setPc_mem (t : Word) : (s.setPc t).mem = s.mem := rfl
@[simp] theorem setPc_run (t : Word) : (s.setPc t).run = s.run := rfl
@[simp] theorem setPc_stopReason (t : Word) : (s.setPc t).stopReason = s.stopReason := rfl
@[simp] theorem setPc_printRequests (t : Word) : (s.setPc t).printRequests = s.printRequests := rfl

/-! ### setMem -/

@[simp] theorem setMem_launch (m : Memory) : (s.setMem m).launch = s.launch := rfl
@[simp] theorem setMem_regs (m : Memory) : (s.setMem m).regs = s.regs := rfl
@[simp] theorem setMem_pc (m : Memory) : (s.setMem m).pc = s.pc := rfl
@[simp] theorem setMem_mem (m : Memory) : (s.setMem m).mem = m := rfl
@[simp] theorem setMem_run (m : Memory) : (s.setMem m).run = s.run := rfl
@[simp] theorem setMem_stopReason (m : Memory) : (s.setMem m).stopReason = s.stopReason := rfl
@[simp] theorem setMem_printRequests (m : Memory) : (s.setMem m).printRequests = s.printRequests := rfl

/-! ### stopAs -/

@[simp] theorem stopAs_launch (r : RunState) (reason : StopReason) : (s.stopAs r reason).launch = s.launch := rfl
@[simp] theorem stopAs_regs (r : RunState) (reason : StopReason) : (s.stopAs r reason).regs = s.regs := rfl
@[simp] theorem stopAs_pc (r : RunState) (reason : StopReason) : (s.stopAs r reason).pc = s.pc := rfl
@[simp] theorem stopAs_mem (r : RunState) (reason : StopReason) : (s.stopAs r reason).mem = s.mem := rfl
@[simp] theorem stopAs_run (r : RunState) (reason : StopReason) : (s.stopAs r reason).run = r := rfl
@[simp] theorem stopAs_stopReason (r : RunState) (reason : StopReason) : (s.stopAs r reason).stopReason = some reason := rfl
@[simp] theorem stopAs_printRequests (r : RunState) (reason : StopReason) : (s.stopAs r reason).printRequests = s.printRequests := rfl

/-! ### requestPrint -/

@[simp] theorem requestPrint_launch : (s.requestPrint).launch = s.launch := rfl
@[simp] theorem requestPrint_regs : (s.requestPrint).regs = s.regs := rfl
@[simp] theorem requestPrint_pc : (s.requestPrint).pc = s.pc := rfl
@[simp] theorem requestPrint_mem : (s.requestPrint).mem = s.mem := rfl
@[simp] theorem requestPrint_run : (s.requestPrint).run = s.run := rfl
@[simp] theorem requestPrint_stopReason : (s.requestPrint).stopReason = s.stopReason := rfl
@[simp] theorem requestPrint_printRequests : (s.requestPrint).printRequests = s.printRequests + 1 := rfl

/-! ### the register read port under the updates that leave the registers -/

@[simp] theorem reg_setPc (t : Word) (i : Reg) : (s.setPc t).reg i = s.reg i := rfl
@[simp] theorem reg_setMem (m : Memory) (i : Reg) : (s.setMem m).reg i = s.reg i := rfl
@[simp] theorem reg_stopAs (r : RunState) (reason : StopReason) (i : Reg) :
    (s.stopAs r reason).reg i = s.reg i := rfl
@[simp] theorem reg_requestPrint (i : Reg) : s.requestPrint.reg i = s.reg i := rfl

/-- R23: register 0 reads as zero always. -/
@[simp] theorem reg_zero : s.reg 0#5 = 0#32 := rfl

/-- R23: a write of register 0 changes nothing. -/
@[simp] theorem setReg_zero (v : Word) : s.setReg 0#5 v = s := rfl

theorem reg_of_ne_zero {i : Reg} (h : i ≠ 0#5) : s.reg i = s.regs[i.toNat]'i.isLt := by
  simp [State.reg, h]

/-- A register written reads as the value written, x0 apart. -/
@[simp] theorem reg_setReg_same (i : Reg) (v : Word) :
    (s.setReg i v).reg i = if i = 0#5 then 0#32 else v := by
  by_cases h : i = 0#5 <;> simp [State.reg, h]

/-- A write leaves every other register. -/
theorem reg_setReg_of_ne {i j : Reg} (v : Word) (h : j ≠ i) : (s.setReg i v).reg j = s.reg j := by
  have hn : i.toNat ≠ j.toNat := fun e => h (BitVec.eq_of_toNat_eq e.symm)
  by_cases hi : i = 0#5 <;> by_cases hj : j = 0#5 <;> simp [State.reg, hi, hj, hn]

/-- The cell of x0 is never written. -/
theorem zeroCell_setReg (i : Reg) (v : Word) (h : s.regs[0] = 0#32) : (s.setReg i v).regs[0] = 0#32 := by
  by_cases hi : i = 0#5
  · simpa [hi] using h
  · have : i.toNat ≠ 0 := fun e => hi (BitVec.eq_of_toNat_eq (by simpa using e))
    simp [hi, this, h]

end Sys2Proof.Machine.State
end

