-- ==== Sys2Proof/Laws/Ops.lean ====
section
/-! SUPPORT. What each shared operation can do, said once: the access primitives, the endings of an
instruction, and exec as a whole. -/

namespace Sys2Proof.Machine

/-! ### Access primitives -/

/-- The checks of a data access pass exactly when it is aligned and inside the data segment
(20_memory.md R45, R46). -/
theorem dataCheck_eq_ok (s : State) (a : Word) (n : Width) (u : Unit) :
    dataCheck s a n = .ok u ↔ a.toNat % n.bytes = 0 ∧ s.launch.inData (wordAddr a) = true := by
  simp only [dataCheck]
  by_cases h : a.toNat % n.bytes = 0 <;> by_cases h' : s.launch.inData (wordAddr a) = true <;>
    simp [h, h']

/-- Misalignment is found before the range (R45). -/
theorem dataCheck_misaligned (s : State) (a : Word) (n : Width) (h : a.toNat % n.bytes ≠ 0) :
    dataCheck s a n = .error .dataMisaligned := by simp [dataCheck, h]

theorem dataCheck_outOfRange (s : State) (a : Word) (n : Width) (h : a.toNat % n.bytes = 0)
    (h' : s.launch.inData (wordAddr a) = false) :
    dataCheck s a n = .error .dataAccessOutOfRange := by simp [dataCheck, h, h']

/-- A data access ends in one of two fatal kinds or passes. -/
theorem dataCheck_cases (s : State) (a : Word) (n : Width) :
    dataCheck s a n = .ok () ∨ dataCheck s a n = .error .dataMisaligned ∨
      dataCheck s a n = .error .dataAccessOutOfRange := by
  simp only [dataCheck]
  split
  · simp
  · split <;> simp

/-- An aligned access stays inside the word that contains it. -/
theorem inside_word (a : Word) (n : Width) (h : a.toNat % n.bytes = 0) :
    wordAddr a ≤ a.toNat ∧ a.toNat + n.bytes ≤ wordAddr a + 4 := by
  cases n <;> simp only [Width.bytes, wordAddr] at * <;> omega

theorem memRead_ok {s : State} {a : Word} {n : Width} (h : dataCheck s a n = .ok ()) :
    memRead s a n = .ok (s.mem.readLE a.toNat n.bytes) := by simp [memRead, h]

theorem memRead_error {s : State} {a : Word} {n : Width} {k : FatalKind}
    (h : dataCheck s a n = .error k) : memRead s a n = .error k := by simp [memRead, h]

theorem memWrite_ok {s : State} {a : Word} {n : Width} (v : Word) (h : dataCheck s a n = .ok ()) :
    memWrite s a n v = .ok (s.mem.writeLE a.toNat n.bytes v) := by simp [memWrite, h]

theorem memWrite_error {s : State} {a : Word} {n : Width} {k : FatalKind} (v : Word)
    (h : dataCheck s a n = .error k) : memWrite s a n v = .error k := by simp [memWrite, h]

/-- `Fetch` succeeds exactly at an aligned mapped address (R44). -/
theorem fetch_eq_ok (s : State) (a w : Word) :
    fetch s a = .ok w ↔
      a.toNat % 4 = 0 ∧ s.launch.mapped a.toNat = true ∧ w = s.mem.word a.toNat := by
  simp only [fetch]
  by_cases h : a.toNat % 4 = 0 <;> by_cases h' : s.launch.mapped a.toNat = true <;>
    simp [h, h', eq_comm]

theorem fetch_cases (s : State) (a : Word) :
    fetch s a = .ok (s.mem.word a.toNat) ∨ fetch s a = .error .fetchMisaligned ∨
      fetch s a = .error .fetchOutOfRange := by
  simp only [fetch]
  split
  · simp
  · split <;> simp

/-! ### Loads and stores -/

/-- A load that passes its checks writes `rd` and goes on (R166). -/
theorem load_ok {s : State} {n : Width} {rs1 : Reg} {imm : BitVec 12} (e : Word → Word) (rd : Reg)
    (h : dataCheck s (effAddr s rs1 imm) n = .ok ()) :
    load n e rd rs1 imm s =
      writeBack rd (e (s.mem.readLE (effAddr s rs1 imm).toNat n.bytes)) s := by
  simp [load, memRead_ok h]

theorem load_error {s : State} {n : Width} {rs1 : Reg} {imm : BitVec 12} {k : FatalKind}
    (e : Word → Word) (rd : Reg) (h : dataCheck s (effAddr s rs1 imm) n = .error k) :
    load n e rd rs1 imm s = raiseFatal k s := by
  simp [load, memRead_error h]

/-- A store that passes its checks writes its bytes and goes on (R170). -/
theorem store_ok {s : State} {n : Width} {rs1 : Reg} {imm : BitVec 12} (rs2 : Reg)
    (h : dataCheck s (effAddr s rs1 imm) n = .ok ()) :
    store n rs2 rs1 imm s =
      .next ((s.setMem (s.mem.writeLE (effAddr s rs1 imm).toNat n.bytes (s.reg rs2))).setPc
        (nextPc s)) := by
  simp [store, memWrite_ok _ h]

theorem store_error {s : State} {n : Width} {rs1 : Reg} {imm : BitVec 12} {k : FatalKind}
    (rs2 : Reg) (h : dataCheck s (effAddr s rs1 imm) n = .error k) :
    store n rs2 rs1 imm s = raiseFatal k s := by
  simp [store, memWrite_error _ h]

/-! ### What an instruction can do -/

/-- Where `pc` can go in an instruction that goes on (10_state.md R25): in sequence, or by an offset
that is even when the instruction is well-formed. -/
def Instr.target (i : Instr) (s : State) (p : Word) : Prop :=
  p = nextPc s ∨ ∃ o : Word, p = s.pc + o ∧ (i.wf = true → o.getLsbD 0 = false)

/-- Everything an instruction can do: write at most one register and go on, store and go on, request a
print and go on, stop on a fatal condition, or halt. -/
inductive ExecCase (i : Instr) (s : State) : State → Prop where
  | regs (rd : Reg) (v p : Word) (h : Instr.target i s p) : ExecCase i s ((s.setReg rd v).setPc p)
  | store (a : Word) (n : Width) (v : Word) (h : dataCheck s a n = .ok ()) :
      ExecCase i s ((s.setMem (s.mem.writeLE a.toNat n.bytes v)).setPc (nextPc s))
  | print : ExecCase i s (s.requestPrint.setPc (nextPc s))
  | fatal (k : FatalKind) (h : k ≠ .invalidRegisterIndex) :
      ExecCase i s (s.stopAs .faulted (.fatal k))
  | halt : ExecCase i s (s.stopAs .halted (.halt .ecallHalt))

theorem execCase_writeBack (i : Instr) (s : State) (rd : Reg) (v : Word) :
    ∃ t, writeBack rd v s = .next t ∧ ExecCase i s t := ⟨_, rfl, .regs rd v _ (.inl rfl)⟩

theorem execCase_load (i : Instr) (n : Width) (e : Word → Word) (rd rs1 : Reg) (imm : BitVec 12)
    (s : State) : ∃ t, load n e rd rs1 imm s = .next t ∧ ExecCase i s t := by
  rcases dataCheck_cases s (effAddr s rs1 imm) n with h | h | h
  · rw [load_ok e rd h]; exact execCase_writeBack i s rd _
  · rw [load_error e rd h]; exact ⟨_, rfl, .fatal _ (by decide)⟩
  · rw [load_error e rd h]; exact ⟨_, rfl, .fatal _ (by decide)⟩

theorem execCase_store (i : Instr) (n : Width) (rs2 rs1 : Reg) (imm : BitVec 12) (s : State) :
    ∃ t, store n rs2 rs1 imm s = .next t ∧ ExecCase i s t := by
  rcases dataCheck_cases s (effAddr s rs1 imm) n with h | h | h
  · rw [store_ok rs2 h]; exact ⟨_, rfl, .store _ n _ h⟩
  · rw [store_error rs2 h]; exact ⟨_, rfl, .fatal _ (by decide)⟩
  · rw [store_error rs2 h]; exact ⟨_, rfl, .fatal _ (by decide)⟩

/-- A sign-extended offset is even when the offset is. -/
theorem sext_even {n : Nat} (hn : 0 < n) (o : BitVec n) (h : o.getLsbD 0 = false) :
    (sext o).getLsbD 0 = false := by
  simp only [sext, BitVec.getLsbD_signExtend, h, hn]
  simp

theorem branchOffset_even {o : BitVec 13} (h : branchOffsetOk o = true) : o.getLsbD 0 = false := by
  simpa only [branchOffsetOk, Bool.not_eq_true'] using h

theorem jumpOffset_even {o : BitVec 21} (h : jumpOffsetOk o = true) : o.getLsbD 0 = false := by
  simpa only [jumpOffsetOk, Bool.not_eq_true'] using h

theorem execCase_branch (i : Instr) (f : Relations → Bool) (rs1 rs2 : Reg) (o : BitVec 13) (s : State)
    (h : i.wf = true → o.getLsbD 0 = false) :
    ∃ t, branch f rs1 rs2 o s = .next t ∧ ExecCase i s t := by
  simp only [branch]
  split
  · exact ⟨_, rfl, .regs 0#5 0#32 _ (.inr ⟨sext o, rfl, fun w => sext_even (by decide) o (h w)⟩)⟩
  · exact ⟨_, rfl, .regs 0#5 0#32 _ (.inl rfl)⟩

theorem execCase_ecall (i : Instr) (rd rs1 : Reg) (imm : BitVec 12) (s : State) :
    ∃ t, execEcall rd rs1 imm s = .next t ∧ ExecCase i s t := by
  simp only [execEcall]
  split
  · exact ⟨_, rfl, .halt⟩
  · split
    · exact ⟨_, rfl, .print⟩
    · exact ⟨_, rfl, .regs 0#5 0#32 _ (.inl rfl)⟩

/-- Every instruction answers a next state, and it is one of the cases. -/
theorem exec_cases (i : Instr) (s : State) : ∃ t, exec i s = .next t ∧ ExecCase i s t := by
  cases i with
  | lb rd rs1 imm => exact execCase_load _ _ _ rd rs1 imm s
  | lh rd rs1 imm => exact execCase_load _ _ _ rd rs1 imm s
  | lw rd rs1 imm => exact execCase_load _ _ _ rd rs1 imm s
  | lbu rd rs1 imm => exact execCase_load _ _ _ rd rs1 imm s
  | lhu rd rs1 imm => exact execCase_load _ _ _ rd rs1 imm s
  | sb rs2 rs1 imm => exact execCase_store _ _ rs2 rs1 imm s
  | sh rs2 rs1 imm => exact execCase_store _ _ rs2 rs1 imm s
  | sw rs2 rs1 imm => exact execCase_store _ _ rs2 rs1 imm s
  | addi rd rs1 imm => exact execCase_writeBack _ s rd _
  | slti rd rs1 imm => exact execCase_writeBack _ s rd _
  | sltiu rd rs1 imm => exact execCase_writeBack _ s rd _
  | xori rd rs1 imm => exact execCase_writeBack _ s rd _
  | ori rd rs1 imm => exact execCase_writeBack _ s rd _
  | andi rd rs1 imm => exact execCase_writeBack _ s rd _
  | slli rd rs1 shamt => exact execCase_writeBack _ s rd _
  | srli rd rs1 shamt => exact execCase_writeBack _ s rd _
  | srai rd rs1 shamt => exact execCase_writeBack _ s rd _
  | add rd rs1 rs2 => exact execCase_writeBack _ s rd _
  | sub rd rs1 rs2 => exact execCase_writeBack _ s rd _
  | sll rd rs1 rs2 => exact execCase_writeBack _ s rd _
  | slt rd rs1 rs2 => exact execCase_writeBack _ s rd _
  | sltu rd rs1 rs2 => exact execCase_writeBack _ s rd _
  | xor rd rs1 rs2 => exact execCase_writeBack _ s rd _
  | srl rd rs1 rs2 => exact execCase_writeBack _ s rd _
  | sra rd rs1 rs2 => exact execCase_writeBack _ s rd _
  | or rd rs1 rs2 => exact execCase_writeBack _ s rd _
  | and rd rs1 rs2 => exact execCase_writeBack _ s rd _
  | beq rs1 rs2 o => 
    exact execCase_branch (.beq rs1 rs2 o) (fun r => r.equal) rs1 rs2 o s branchOffset_even
  | bne rs1 rs2 o => 
    exact execCase_branch (.bne rs1 rs2 o) (fun r => !r.equal) rs1 rs2 o s branchOffset_even
  | blt rs1 rs2 o => 
    exact execCase_branch (.blt rs1 rs2 o) (fun r => r.lessThanSigned) rs1 rs2 o s branchOffset_even
  | bge rs1 rs2 o => 
    exact execCase_branch (.bge rs1 rs2 o) (fun r => !r.lessThanSigned) rs1 rs2 o s branchOffset_even
  | bltu rs1 rs2 o => 
    exact execCase_branch (.bltu rs1 rs2 o) (fun r => r.lessThanUnsigned) rs1 rs2 o s branchOffset_even
  | bgeu rs1 rs2 o => 
    exact execCase_branch (.bgeu rs1 rs2 o) (fun r => !r.lessThanUnsigned) rs1 rs2 o s branchOffset_even
  | jal rd o =>
    exact ⟨_, rfl, .regs rd _ _ (.inr ⟨sext o, rfl, fun w =>
      sext_even (by decide) o (jumpOffset_even w)⟩)⟩
  | jalr rd rs1 imm => exact ⟨_, rfl, .fatal _ (by decide)⟩
  | lui rd imm20 => exact execCase_writeBack _ s rd _
  | auipc rd imm20 => exact execCase_writeBack _ s rd _
  | ecall rd rs1 imm => exact execCase_ecall _ rd rs1 imm s

/-- The cases of an instruction's next state. -/
theorem exec_next {i : Instr} {s t : State} (h : exec i s = .next t) : ExecCase i s t := by
  obtain ⟨u, hu, hc⟩ := exec_cases i s
  rw [hu] at h
  cases h
  exact hc

/-! ### What a tick and a step can do -/

/-- Everything a tick can do: a stop of phase A or B that keeps all but the run state and the reason, or
the decoded instruction. -/
theorem tick_cases (s : State) :
    (∃ k, k ≠ .invalidRegisterIndex ∧ tick s = raiseFatal k s) ∨ (∃ r, tick s = halt r s) ∨
      ∃ i, decode (s.mem.word s.pc.toNat) = .ok i ∧ tick s = exec i s := by
  simp only [tick, issue]
  split
  · next r heq =>
    split at heq
    · cases heq; exact .inr (.inl ⟨_, rfl⟩)
    · rcases fetch_cases s s.pc with h | h | h
      · rw [h] at heq
        simp only at heq
        split at heq
        · cases heq; exact .inr (.inl ⟨_, rfl⟩)
        · split at heq
          · cases heq; exact .inl ⟨_, by decide, rfl⟩
          · cases heq
      · rw [h] at heq; cases heq; exact .inl ⟨_, by decide, rfl⟩
      · rw [h] at heq; cases heq; exact .inl ⟨_, by decide, rfl⟩
  · next i heq =>
    split at heq
    · cases heq
    · rcases fetch_cases s s.pc with h | h | h
      · rw [h] at heq
        simp only at heq
        split at heq
        · cases heq
        · split at heq
          · cases heq
          · next j hj => cases heq; exact .inr (.inr ⟨_, hj, rfl⟩)
      · rw [h] at heq; cases heq
      · rw [h] at heq; cases heq

/-- The stop checks of a tick one by one, and what runs when all pass (41_execution_engine.md R132,
R133). -/
theorem tick_above {s : State} (h : s.launch.pcMax.toNat < s.pc.toNat) : tick s = halt .pcRange s := by
  have hi : issue s = .stop (halt .pcRange s) := if_pos h
  simp only [tick, hi]

theorem tick_fetch_error {s : State} {k : FatalKind} (h : s.pc.toNat ≤ s.launch.pcMax.toNat)
    (hf : fetch s s.pc = .error k) : tick s = raiseFatal k s := by
  have hi : issue s = .stop (raiseFatal k s) := by
    refine (if_neg (Nat.not_lt.2 h)).trans ?_
    rw [hf]
  simp only [tick, hi]

theorem tick_sentinel {s : State} (h : s.pc.toNat ≤ s.launch.pcMax.toNat)
    (hf : fetch s s.pc = .ok 0x00000000#32) : tick s = halt .sentinel s := by
  have hi : issue s = .stop (halt .sentinel s) := by
    refine (if_neg (Nat.not_lt.2 h)).trans ?_
    rw [hf]
    exact if_pos rfl
  simp only [tick, hi]

theorem tick_undecoded {s : State} {w : Word} {e : DecodeError} (h : s.pc.toNat ≤ s.launch.pcMax.toNat)
    (hf : fetch s s.pc = .ok w) (hw : w ≠ 0x00000000#32) (hd : decode w = .error e) :
    tick s = raiseFatal .decodeError s := by
  have hi : issue s = .stop (raiseFatal .decodeError s) := by
    refine (if_neg (Nat.not_lt.2 h)).trans ?_
    rw [hf]
    refine (if_neg hw).trans ?_
    rw [hd]
  simp only [tick, hi]

/-- The zero word does not decode (30_encoding.md R78). -/
theorem decode_zero : decode 0x00000000#32 = .error .unresolved := by decide

theorem tick_runs {s : State} {w : Word} {i : Instr} (h : s.pc.toNat ≤ s.launch.pcMax.toNat)
    (hf : fetch s s.pc = .ok w) (hd : decode w = .ok i) : tick s = exec i s := by
  have hw : w ≠ 0x00000000#32 := by
    rintro rfl
    rw [decode_zero] at hd
    cases hd
  have hi : issue s = .run i := by
    refine (if_neg (Nat.not_lt.2 h)).trans ?_
    rw [hf]
    refine (if_neg hw).trans ?_
    rw [hd]
  simp only [tick, hi]

/-- The next state of a tick: a stop, or what the decoded instruction can do. -/
theorem tick_next {s t : State} (h : tick s = .next t) :
    (∃ k, k ≠ .invalidRegisterIndex ∧ t = s.stopAs .faulted (.fatal k)) ∨
      (∃ r, t = s.stopAs .halted (.halt r)) ∨
      ∃ i, decode (s.mem.word s.pc.toNat) = .ok i ∧ exec i s = .next t := by
  rcases tick_cases s with ⟨k, hk, e⟩ | ⟨r, e⟩ | ⟨i, hi, e⟩
  · rw [e] at h; cases h; exact .inl ⟨k, hk, rfl⟩
  · rw [e] at h; cases h; exact .inr (.inl ⟨r, rfl⟩)
  · exact .inr (.inr ⟨i, hi, by rw [← e]; exact h⟩)

/-- When a step answers a next state: from RESET the state after reset, from RUNNING a tick. -/
theorem step_next {s t : State} (h : step s = .next t) :
    s.launch.ok = true ∧
      (s.run = .reset ∧ t = State.resetOf s.launch ∨ s.run = .running ∧ tick s = .next t) := by
  simp only [step, cycle] at h
  split at h
  · next hok =>
    refine ⟨hok, ?_⟩
    split at h
    · next hr => cases h; exact .inl ⟨hr, rfl⟩
    · next hr => exact .inr ⟨hr, h⟩
    · cases h
    · cases h
  · cases h

end Sys2Proof.Machine
end

