-- ==== Sys2Proof/Laws/Exec.lean ====
section
/-! SUPPORT. The endings of an instruction in the terms claims use (Safety.lean). -/

namespace Sys2Proof.Machine

/-- Writing `rd` and moving `pc` writes only `rd`. -/
theorem writesOnly_setReg (s : State) (rd : Reg) (v p : Word) :
    WritesOnly rd v s ((s.setReg rd v).setPc p) where
  value := by simp
  regs := fun r h => by simp [State.reg_setReg_of_ne s v h]
  mem := fun _ => rfl
  goesOn := ⟨rfl, rfl, rfl⟩
  prints := rfl

/-- Moving `pc` moves only `pc`. -/
theorem onlyPcMoves_setPc (s : State) (p : Word) : OnlyPcMoves s (s.setPc p) :=
  ⟨fun _ => rfl, fun _ => rfl, ⟨rfl, rfl, rfl⟩, rfl⟩

/-- A stop changes the run state and the stop reason only. -/
theorem stopsAs_stopAs (s : State) (r : RunState) (reason : StopReason) :
    StopsAs r reason s (s.stopAs r reason) :=
  ⟨rfl, rfl, rfl, fun _ => rfl, fun _ => rfl, rfl, rfl⟩

/-- A store keeps every byte outside its own. -/
theorem memKeptBut_writeLE (s : State) (a n : Nat) (v p : Word) :
    MemKeptBut a n s ((s.setMem (s.mem.writeLE a n v)).setPc p) := fun x h => by
  simpa using Memory.read_writeLE_outside s.mem a n x v h

/-- A passed data check, in the words of 20_memory.md R41 and R45. -/
theorem dataCheck_ok_bounds {s : State} {a : Word} {n : Width} (h : dataCheck s a n = .ok ()) :
    a.toNat % n.bytes = 0 ∧ s.launch.dataBase ≤ a.toNat / 4 * 4 ∧
      a.toNat / 4 * 4 + 3 < s.launch.dataLimit := by
  have h' := (dataCheck_eq_ok s a n ()).1 h
  simp only [Launch.inData, Bool.and_eq_true, decide_eq_true_eq] at h'
  exact h'

/-- The constraints of a launch, one by one (00_scope.md R8). -/
theorem launch_ok_bounds {l : Launch} (h : l.ok = true) :
    l.memBase ≤ l.dataBase ∧ l.dataLimit ≤ l.memBase + 4 * l.memWords ∧ l.dataBase % 4 = 0 ∧
      l.dataLimit % 4 = 0 ∧ l.pcReset.toNat % 4 = 0 ∧ l.image.wf = true ∧
      l.image.all (fun c => l.mappedByte c.1) = true := by
  simp only [Launch.ok, Bool.and_eq_true, decide_eq_true_eq] at h
  obtain ⟨⟨⟨⟨⟨⟨⟨⟨⟨-, -⟩, h1⟩, h2⟩, h3⟩, -⟩, h4⟩, h5⟩, h6⟩, h7⟩ := h
  exact ⟨h3, h4, h1, h2, h5, h6, h7⟩

/-- The step from RUNNING is the tick. -/
theorem step_running {s : State} (h : s.launch.ok = true) (hr : s.run = .running) : step s = tick s := by
  simp [step, cycle, h, hr]

/-- ECALL with a halt code halts (48_system.md R261). -/
theorem execEcall_halts (rd rs1 : Reg) (imm : BitVec 12) {s : State}
    (h : s.reg 10#5 = 0x00000000#32 ∨ s.reg 10#5 = 0x0000000A#32) :
    execEcall rd rs1 imm s = halt .ecallHalt s := if_pos h

/-- ECALL with the print code asks for a print and goes on (R261, R262). -/
theorem execEcall_prints (rd rs1 : Reg) (imm : BitVec 12) {s : State}
    (h : s.reg 10#5 = 0x00000001#32) :
    execEcall rd rs1 imm s = .next (s.requestPrint.setPc (nextPc s)) := by
  refine (if_neg ?_).trans (if_pos h)
  simp only [argumentReg, h]
  decide

/-- ECALL with any other code goes on (R261). -/
theorem execEcall_goes_on (rd rs1 : Reg) (imm : BitVec 12) {s : State} (h0 : s.reg 10#5 ≠ 0x00000000#32)
    (h1 : s.reg 10#5 ≠ 0x00000001#32) (h10 : s.reg 10#5 ≠ 0x0000000A#32) :
    execEcall rd rs1 imm s = .next (s.setPc (nextPc s)) :=
  (if_neg (fun h => h.elim h0 h10)).trans (if_neg h1)

/-- Bit `j` of the word at an address is bit `j % 8` of byte `j / 8` (20_memory.md R47). -/
theorem getLsbD_word (m : Memory) (a j : Nat) (hj : j < 32) :
    (m.word a).getLsbD j = (m.read (a + j / 8)).getLsbD (j % 8) := by
  rw [Memory.word, Memory.getLsbD_readLE m a 4 j (by decide), decide_eq_true (by omega), Bool.true_and]

end Sys2Proof.Machine
end

