-- ==== Sys2Proof/Laws/PerInstr.lean ====
section
/-! SUPPORT. What is said of every instruction as syntax, one lemma for each constructor. -/

namespace Sys2Proof.Laws

namespace EncodeAccepted

/-- The table reads the word of an instruction as that instruction's mnemonic (R74, R77). -/
def Statement (i : Instr) : Prop := lookupMnemonic (encode i) = some i.mnemonic

theorem lb (rd rs1 : Reg) (imm : BitVec 12) : Statement (.lb rd rs1 imm) := by
  simp [Statement, lookupMnemonic, instructionTable, loadRows, storeRows, opImmRows, opRegRows,
    branchRows, otherRows, TableRow.accepts, encode, Instr.mnemonic]

theorem lh (rd rs1 : Reg) (imm : BitVec 12) : Statement (.lh rd rs1 imm) := by
  simp [Statement, lookupMnemonic, instructionTable, loadRows, storeRows, opImmRows, opRegRows,
    branchRows, otherRows, TableRow.accepts, encode, Instr.mnemonic]

theorem lw (rd rs1 : Reg) (imm : BitVec 12) : Statement (.lw rd rs1 imm) := by
  simp [Statement, lookupMnemonic, instructionTable, loadRows, storeRows, opImmRows, opRegRows,
    branchRows, otherRows, TableRow.accepts, encode, Instr.mnemonic]

theorem lbu (rd rs1 : Reg) (imm : BitVec 12) : Statement (.lbu rd rs1 imm) := by
  simp [Statement, lookupMnemonic, instructionTable, loadRows, storeRows, opImmRows, opRegRows,
    branchRows, otherRows, TableRow.accepts, encode, Instr.mnemonic]

theorem lhu (rd rs1 : Reg) (imm : BitVec 12) : Statement (.lhu rd rs1 imm) := by
  simp [Statement, lookupMnemonic, instructionTable, loadRows, storeRows, opImmRows, opRegRows,
    branchRows, otherRows, TableRow.accepts, encode, Instr.mnemonic]

theorem sb (rs2 rs1 : Reg) (imm : BitVec 12) : Statement (.sb rs2 rs1 imm) := by
  simp [Statement, lookupMnemonic, instructionTable, loadRows, storeRows, opImmRows, opRegRows,
    branchRows, otherRows, TableRow.accepts, encode, Instr.mnemonic]

theorem sh (rs2 rs1 : Reg) (imm : BitVec 12) : Statement (.sh rs2 rs1 imm) := by
  simp [Statement, lookupMnemonic, instructionTable, loadRows, storeRows, opImmRows, opRegRows,
    branchRows, otherRows, TableRow.accepts, encode, Instr.mnemonic]

theorem sw (rs2 rs1 : Reg) (imm : BitVec 12) : Statement (.sw rs2 rs1 imm) := by
  simp [Statement, lookupMnemonic, instructionTable, loadRows, storeRows, opImmRows, opRegRows,
    branchRows, otherRows, TableRow.accepts, encode, Instr.mnemonic]

theorem addi (rd rs1 : Reg) (imm : BitVec 12) : Statement (.addi rd rs1 imm) := by
  simp [Statement, lookupMnemonic, instructionTable, loadRows, storeRows, opImmRows, opRegRows,
    branchRows, otherRows, TableRow.accepts, encode, Instr.mnemonic]

theorem slti (rd rs1 : Reg) (imm : BitVec 12) : Statement (.slti rd rs1 imm) := by
  simp [Statement, lookupMnemonic, instructionTable, loadRows, storeRows, opImmRows, opRegRows,
    branchRows, otherRows, TableRow.accepts, encode, Instr.mnemonic]

theorem sltiu (rd rs1 : Reg) (imm : BitVec 12) : Statement (.sltiu rd rs1 imm) := by
  simp [Statement, lookupMnemonic, instructionTable, loadRows, storeRows, opImmRows, opRegRows,
    branchRows, otherRows, TableRow.accepts, encode, Instr.mnemonic]

theorem xori (rd rs1 : Reg) (imm : BitVec 12) : Statement (.xori rd rs1 imm) := by
  simp [Statement, lookupMnemonic, instructionTable, loadRows, storeRows, opImmRows, opRegRows,
    branchRows, otherRows, TableRow.accepts, encode, Instr.mnemonic]

theorem ori (rd rs1 : Reg) (imm : BitVec 12) : Statement (.ori rd rs1 imm) := by
  simp [Statement, lookupMnemonic, instructionTable, loadRows, storeRows, opImmRows, opRegRows,
    branchRows, otherRows, TableRow.accepts, encode, Instr.mnemonic]

theorem andi (rd rs1 : Reg) (imm : BitVec 12) : Statement (.andi rd rs1 imm) := by
  simp [Statement, lookupMnemonic, instructionTable, loadRows, storeRows, opImmRows, opRegRows,
    branchRows, otherRows, TableRow.accepts, encode, Instr.mnemonic]

theorem slli (rd rs1 : Reg) (shamt : BitVec 5) : Statement (.slli rd rs1 shamt) := by
  simp [Statement, lookupMnemonic, instructionTable, loadRows, storeRows, opImmRows, opRegRows,
    branchRows, otherRows, TableRow.accepts, encode, Instr.mnemonic]

theorem srli (rd rs1 : Reg) (shamt : BitVec 5) : Statement (.srli rd rs1 shamt) := by
  simp [Statement, lookupMnemonic, instructionTable, loadRows, storeRows, opImmRows, opRegRows,
    branchRows, otherRows, TableRow.accepts, encode, Instr.mnemonic]

theorem srai (rd rs1 : Reg) (shamt : BitVec 5) : Statement (.srai rd rs1 shamt) := by
  simp [Statement, lookupMnemonic, instructionTable, loadRows, storeRows, opImmRows, opRegRows,
    branchRows, otherRows, TableRow.accepts, encode, Instr.mnemonic]

theorem add (rd rs1 rs2 : Reg) : Statement (.add rd rs1 rs2) := by
  simp [Statement, lookupMnemonic, instructionTable, loadRows, storeRows, opImmRows, opRegRows,
    branchRows, otherRows, TableRow.accepts, encode, Instr.mnemonic]

theorem sub (rd rs1 rs2 : Reg) : Statement (.sub rd rs1 rs2) := by
  simp [Statement, lookupMnemonic, instructionTable, loadRows, storeRows, opImmRows, opRegRows,
    branchRows, otherRows, TableRow.accepts, encode, Instr.mnemonic]

theorem sll (rd rs1 rs2 : Reg) : Statement (.sll rd rs1 rs2) := by
  simp [Statement, lookupMnemonic, instructionTable, loadRows, storeRows, opImmRows, opRegRows,
    branchRows, otherRows, TableRow.accepts, encode, Instr.mnemonic]

theorem slt (rd rs1 rs2 : Reg) : Statement (.slt rd rs1 rs2) := by
  simp [Statement, lookupMnemonic, instructionTable, loadRows, storeRows, opImmRows, opRegRows,
    branchRows, otherRows, TableRow.accepts, encode, Instr.mnemonic]

theorem sltu (rd rs1 rs2 : Reg) : Statement (.sltu rd rs1 rs2) := by
  simp [Statement, lookupMnemonic, instructionTable, loadRows, storeRows, opImmRows, opRegRows,
    branchRows, otherRows, TableRow.accepts, encode, Instr.mnemonic]

theorem xor (rd rs1 rs2 : Reg) : Statement (.xor rd rs1 rs2) := by
  simp [Statement, lookupMnemonic, instructionTable, loadRows, storeRows, opImmRows, opRegRows,
    branchRows, otherRows, TableRow.accepts, encode, Instr.mnemonic]

theorem srl (rd rs1 rs2 : Reg) : Statement (.srl rd rs1 rs2) := by
  simp [Statement, lookupMnemonic, instructionTable, loadRows, storeRows, opImmRows, opRegRows,
    branchRows, otherRows, TableRow.accepts, encode, Instr.mnemonic]

theorem sra (rd rs1 rs2 : Reg) : Statement (.sra rd rs1 rs2) := by
  simp [Statement, lookupMnemonic, instructionTable, loadRows, storeRows, opImmRows, opRegRows,
    branchRows, otherRows, TableRow.accepts, encode, Instr.mnemonic]

theorem or (rd rs1 rs2 : Reg) : Statement (.or rd rs1 rs2) := by
  simp [Statement, lookupMnemonic, instructionTable, loadRows, storeRows, opImmRows, opRegRows,
    branchRows, otherRows, TableRow.accepts, encode, Instr.mnemonic]

theorem and (rd rs1 rs2 : Reg) : Statement (.and rd rs1 rs2) := by
  simp [Statement, lookupMnemonic, instructionTable, loadRows, storeRows, opImmRows, opRegRows,
    branchRows, otherRows, TableRow.accepts, encode, Instr.mnemonic]

theorem beq (rs1 rs2 : Reg) (offset : BitVec 13) : Statement (.beq rs1 rs2 offset) := by
  simp [Statement, lookupMnemonic, instructionTable, loadRows, storeRows, opImmRows, opRegRows,
    branchRows, otherRows, TableRow.accepts, encode, Instr.mnemonic]

theorem bne (rs1 rs2 : Reg) (offset : BitVec 13) : Statement (.bne rs1 rs2 offset) := by
  simp [Statement, lookupMnemonic, instructionTable, loadRows, storeRows, opImmRows, opRegRows,
    branchRows, otherRows, TableRow.accepts, encode, Instr.mnemonic]

theorem blt (rs1 rs2 : Reg) (offset : BitVec 13) : Statement (.blt rs1 rs2 offset) := by
  simp [Statement, lookupMnemonic, instructionTable, loadRows, storeRows, opImmRows, opRegRows,
    branchRows, otherRows, TableRow.accepts, encode, Instr.mnemonic]

theorem bge (rs1 rs2 : Reg) (offset : BitVec 13) : Statement (.bge rs1 rs2 offset) := by
  simp [Statement, lookupMnemonic, instructionTable, loadRows, storeRows, opImmRows, opRegRows,
    branchRows, otherRows, TableRow.accepts, encode, Instr.mnemonic]

theorem bltu (rs1 rs2 : Reg) (offset : BitVec 13) : Statement (.bltu rs1 rs2 offset) := by
  simp [Statement, lookupMnemonic, instructionTable, loadRows, storeRows, opImmRows, opRegRows,
    branchRows, otherRows, TableRow.accepts, encode, Instr.mnemonic]

theorem bgeu (rs1 rs2 : Reg) (offset : BitVec 13) : Statement (.bgeu rs1 rs2 offset) := by
  simp [Statement, lookupMnemonic, instructionTable, loadRows, storeRows, opImmRows, opRegRows,
    branchRows, otherRows, TableRow.accepts, encode, Instr.mnemonic]

theorem jal (rd : Reg) (offset : BitVec 21) : Statement (.jal rd offset) := by
  simp [Statement, lookupMnemonic, instructionTable, loadRows, storeRows, opImmRows, opRegRows,
    branchRows, otherRows, TableRow.accepts, encode, Instr.mnemonic]

theorem jalr (rd rs1 : Reg) (imm : BitVec 12) : Statement (.jalr rd rs1 imm) := by
  simp [Statement, lookupMnemonic, instructionTable, loadRows, storeRows, opImmRows, opRegRows,
    branchRows, otherRows, TableRow.accepts, encode, Instr.mnemonic]

theorem lui (rd : Reg) (imm20 : BitVec 20) : Statement (.lui rd imm20) := by
  simp [Statement, lookupMnemonic, instructionTable, loadRows, storeRows, opImmRows, opRegRows,
    branchRows, otherRows, TableRow.accepts, encode, Instr.mnemonic]

theorem auipc (rd : Reg) (imm20 : BitVec 20) : Statement (.auipc rd imm20) := by
  simp [Statement, lookupMnemonic, instructionTable, loadRows, storeRows, opImmRows, opRegRows,
    branchRows, otherRows, TableRow.accepts, encode, Instr.mnemonic]

theorem ecall (rd rs1 : Reg) (imm : BitVec 12) : Statement (.ecall rd rs1 imm) := by
  simp [Statement, lookupMnemonic, instructionTable, loadRows, storeRows, opImmRows, opRegRows,
    branchRows, otherRows, TableRow.accepts, encode, Instr.mnemonic]

end EncodeAccepted

end Sys2Proof.Laws
end

