-- ==== Sys2Proof/Laws/Table.lean ====
section
/-! SUPPORT. The instruction table: what a row's mask looks at, what a decoded word tells, and one
narrowing step (30_encoding.md R72 to R75). -/

namespace Sys2Proof

/-- A word's opcode bits, by mask. -/
theorem and_mask_opcode (w : Word) (m : BitVec 7) : (w &&& 0x0000007F#32 = m.setWidth 32) ↔ opcodeOf w = m := by
  constructor
  · intro h
    simp only [opcodeOf]
    refine BitVec.eq_of_getLsbD_eq fun i hi => ?_
    have h2 := congrArg (fun v => BitVec.getLsbD v i) h
    simp only [BitVec.getLsbD_and, BitVec.getLsbD_setWidth] at h2
    simp only [BitVec.getLsbD_extractLsb']
    interval_cases i <;> simp_all
  · rintro rfl
    refine BitVec.eq_of_getLsbD_eq fun i hi => ?_
    simp only [BitVec.getLsbD_and, BitVec.getLsbD_setWidth, opcodeOf, BitVec.getLsbD_extractLsb']
    interval_cases i <;> simp

/-- A word's opcode and `funct3` bits, by mask. -/
theorem and_mask_funct3 (w : Word) (m : BitVec 7) (f : BitVec 3) :
    (w &&& 0x0000707F#32 = m.setWidth 32 ||| (f.setWidth 32 <<< 12)) ↔ opcodeOf w = m ∧ funct3Of w = f := by
  constructor
  · intro h
    have h2 := fun i => congrArg (fun v => BitVec.getLsbD v i) h
    simp only [BitVec.getLsbD_and, BitVec.getLsbD_or, BitVec.getLsbD_shiftLeft,
      BitVec.getLsbD_setWidth] at h2
    constructor
    · refine BitVec.eq_of_getLsbD_eq fun i hi => ?_
      have := h2 i
      simp only [opcodeOf, BitVec.getLsbD_extractLsb']
      interval_cases i <;> simp_all
    · refine BitVec.eq_of_getLsbD_eq fun i hi => ?_
      have := h2 (12 + i)
      simp only [funct3Of, BitVec.getLsbD_extractLsb']
      interval_cases i <;> simp_all
  · rintro ⟨rfl, rfl⟩
    refine BitVec.eq_of_getLsbD_eq fun i hi => ?_
    simp only [BitVec.getLsbD_and, BitVec.getLsbD_or, BitVec.getLsbD_shiftLeft,
      BitVec.getLsbD_setWidth, opcodeOf, funct3Of, BitVec.getLsbD_extractLsb']
    interval_cases i <;> simp

/-- A word's opcode, `funct3` and `funct7` bits, by mask. -/
theorem and_mask_funct7 (w : Word) (m : BitVec 7) (f : BitVec 3) (g : BitVec 7) :
    (w &&& 0xFE00707F#32 = m.setWidth 32 ||| (f.setWidth 32 <<< 12) ||| (g.setWidth 32 <<< 25)) ↔
      opcodeOf w = m ∧ funct3Of w = f ∧ funct7Of w = g := by
  constructor
  · intro h
    have h2 := fun i => congrArg (fun v => BitVec.getLsbD v i) h
    simp only [BitVec.getLsbD_and, BitVec.getLsbD_or, BitVec.getLsbD_shiftLeft,
      BitVec.getLsbD_setWidth] at h2
    refine ⟨?_, ?_, ?_⟩
    · refine BitVec.eq_of_getLsbD_eq fun i hi => ?_
      have := h2 i
      simp only [opcodeOf, BitVec.getLsbD_extractLsb']
      interval_cases i <;> simp_all
    · refine BitVec.eq_of_getLsbD_eq fun i hi => ?_
      have := h2 (12 + i)
      simp only [funct3Of, BitVec.getLsbD_extractLsb']
      interval_cases i <;> simp_all
    · refine BitVec.eq_of_getLsbD_eq fun i hi => ?_
      have := h2 (25 + i)
      simp only [funct7Of, BitVec.getLsbD_extractLsb']
      interval_cases i <;> simp_all
  · rintro ⟨rfl, rfl, rfl⟩
    refine BitVec.eq_of_getLsbD_eq fun i hi => ?_
    simp only [BitVec.getLsbD_and, BitVec.getLsbD_or, BitVec.getLsbD_shiftLeft,
      BitVec.getLsbD_setWidth, opcodeOf, funct3Of, funct7Of, BitVec.getLsbD_extractLsb']
    interval_cases i <;> simp

theorem operandsOf_mnemonic (m : Mnemonic) (w : Word) : (operandsOf m w).mnemonic = m := by
  cases m <;> rfl

/-- A word that decodes is accepted by a row, and its operands are read for that row's mnemonic. -/
theorem decode_row {w : Word} {i : Instr} (h : decode w = .ok i) :
    ∃ r ∈ instructionTable, r.accepts w = true ∧ i = operandsOf r.mnemonic w := by
  simp only [decode, lookupMnemonic] at h
  cases hf : instructionTable.find? (·.accepts w) with
  | none => simp [hf] at h
  | some r =>
    simp [hf] at h
    exact ⟨r, List.mem_of_find?_eq_some hf, by simpa using List.find?_some hf, h.symm⟩

/-- One narrowing step of 30_encoding.md R72 keeps the candidates that match or do not require the
discriminator, where all candidates require it or none does (R73). -/
theorem narrow_list {β : Type} [DecidableEq β] (sel : TableRow → Option β) (v : β) (l : List TableRow)
    (hu : ∀ r ∈ l, ∀ r' ∈ l, (sel r).isSome = (sel r').isSome) :
    (if l.any (fun r => (sel r).isSome) then l.filter (fun r => sel r == some v) else l) =
      l.filter (fun r => (sel r).all (v == ·)) := by
  split
  · next h =>
    obtain ⟨r0, hr0, h0⟩ := List.any_eq_true.1 h
    refine List.filter_congr fun r hr => ?_
    have := hu r hr r0 hr0
    rw [h0] at this
    cases hs : sel r with
    | none => simp [hs] at this
    | some x => simp [eq_comm]
  · next h =>
    symm
    rw [List.filter_eq_self]
    intro r hr
    have : (sel r).isSome = false := by
      by_contra hc
      exact h (List.any_eq_true.2 ⟨r, hr, Bool.eq_true_of_not_eq_false hc⟩)
    cases hs : sel r with
    | none => simp
    | some x => simp [hs] at this

end Sys2Proof
end

