-- ==== Sys2Proof/Laws/Values.lean ====
section
/-! SUPPORT. The operand forms and the encoder in numbers: sign extension, targets, shift amounts, the
upper immediate, memory lanes, and the bits an encoding fixes. -/

namespace Sys2Proof.Machine

/-! ### Sign extension (00_scope.md R14) -/

theorem toInt_sext {n : Nat} (hn : n ≤ 32) (v : BitVec n) : (sext v).toInt = v.toInt := by
  simp [sext, BitVec.toInt_signExtend_of_le hn]

/-- The unsigned reading of a word, from its signed one. -/
theorem toNat_eq_toInt_emod (w : Word) : (w.toNat : Int) = w.toInt % 2 ^ 32 := by
  have := w.isLt
  rw [BitVec.toInt_eq_toNat_cond]
  split <;> omega

theorem toNat_sext {n : Nat} (hn : n ≤ 32) (v : BitVec n) : ((sext v).toNat : Int) = v.toInt % 2 ^ 32 := by
  rw [toNat_eq_toInt_emod, toInt_sext hn]

/-- A 12-bit immediate sign-extended, bit by bit. -/
theorem getLsbD_sext12 (imm : BitVec 12) (j : Nat) (hj : j < 32) :
    (sext imm).getLsbD j = imm.getLsbD (if j < 11 then j else 11) := by
  simp only [sext, BitVec.getLsbD_signExtend, hj]
  interval_cases j <;> simp [BitVec.msb_eq_getLsbD_last]

/-- An address plus a sign-extended offset, modulo 2^32 (30_encoding.md R70, R71). -/
theorem add_sext {n : Nat} (hn : n ≤ 32) (p : Word) (o : BitVec n) :
    p + sext o = BitVec.ofInt 32 (p.toNat + o.toInt) := by
  apply BitVec.eq_of_toNat_eq
  apply Int.ofNat_inj.1
  rw [BitVec.toNat_ofInt, BitVec.toNat_add]
  have := toNat_sext hn o
  push_cast
  rw [this]
  omega

/-! ### Shift amounts and the upper immediate -/

theorem shiftAmount_zext (v : BitVec 5) : shiftAmount (zext v) = v.toNat := by
  revert v
  decide

theorem shiftAmount_mod (v : Word) : shiftAmount v = v.toNat % 32 := by
  simp [shiftAmount, BitVec.extractLsb'_toNat]

/-- The I-type immediate of a shift gives the amount in `word[24:20]` (30_encoding.md R69). -/
theorem shiftAmount_immI (w : Word) : shiftAmount (immI w) = shiftAmount (zext (shamtOf w)) := by
  have : (immI w).extractLsb' 0 5 = (zext (shamtOf w)).extractLsb' 0 5 := by
    refine BitVec.eq_of_getLsbD_eq fun i hi => ?_
    simp only [immI, sext, zext, immIField, shamtOf, BitVec.getLsbD_extractLsb',
      BitVec.getLsbD_signExtend, BitVec.getLsbD_setWidth]
    interval_cases i <;> simp
  simp only [shiftAmount, this]

theorem toNat_upperImm (v : BitVec 20) : (upperImm v).toNat = v.toNat * 2 ^ 12 := by
  have : upperImm v = BitVec.ofNat 32 (v.toNat * 2 ^ 12) := by
    refine BitVec.eq_of_getLsbD_eq fun i hi => ?_
    rw [BitVec.getLsbD_ofNat]
    simp only [upperImm, sext, BitVec.getLsbD_shiftLeft, BitVec.getLsbD_signExtend,
      Nat.testBit_mul_two_pow]
    by_cases h : i < 12
    · simp [h, hi]
    · have h2 : i - 12 < 32 := by omega
      have h3 : i - 12 < 20 := by omega
      simp only [h, hi, h2, h3, decide_true, decide_false, Bool.not_false, Bool.true_and, if_true,
        BitVec.getLsbD]
      simp
      omega
  rw [this]
  have := v.isLt
  simp
  omega

/-! ### Memory lanes (20_memory.md R45) -/

theorem lanes_lt (w : Word) (k n : Nat) : lanes w k n < 2 ^ (8 * n) := Nat.mod_lt _ (by positivity)

/-- Bytes inside one word are its lanes. -/
theorem readLE_lanes (m : Memory) (a n : Nat) (hn : a % 4 + n ≤ 4) :
    (m.readLE a n).toNat = lanes (m.word (a / 4 * 4)) (a % 4) n := by
  apply Nat.eq_of_testBit_eq
  intro i
  rw [lanes, Nat.testBit_mod_two_pow, Nat.testBit_div_two_pow, BitVec.testBit_toNat,
    BitVec.testBit_toNat, Memory.getLsbD_readLE _ _ _ _ (by omega)]
  by_cases hi : i < 8 * n
  · rw [getLsbD_word _ _ _ (by omega)]
    have e1 : a / 4 * 4 + (i + 8 * (a % 4)) / 8 = a + i / 8 := by omega
    have e2 : (i + 8 * (a % 4)) % 8 = i % 8 := by omega
    simp only [hi, e1, e2, decide_true]
  · simp [hi]

theorem sextByte_signedFrom (v : Word) : sextByte v = signedFrom 8 (v.toNat % 2 ^ 8) := by
  apply BitVec.eq_of_toNat_eq
  have h : (v.setWidth 8).toNat = v.toNat % 2 ^ 8 := by simp
  simp only [sextByte, sext, signedFrom, BitVec.toNat_signExtend, BitVec.msb_eq_decide, h]
  by_cases h2 : v.toNat % 2 ^ 8 < 2 ^ 7
  · rw [if_neg (by simp; omega), if_pos (by omega)]
    simp
  · rw [if_pos (by simp; omega), if_neg (by omega)]
    simp
    omega

theorem sextHalf_signedFrom (v : Word) : sextHalf v = signedFrom 16 (v.toNat % 2 ^ 16) := by
  apply BitVec.eq_of_toNat_eq
  have h : (v.setWidth 16).toNat = v.toNat % 2 ^ 16 := by simp
  simp only [sextHalf, sext, signedFrom, BitVec.toNat_signExtend, BitVec.msb_eq_decide, h]
  by_cases h2 : v.toNat % 2 ^ 16 < 2 ^ 15
  · rw [if_neg (by simp; omega), if_pos (by omega)]
    simp
  · rw [if_pos (by simp; omega), if_neg (by omega)]
    simp
    omega

/-! ### The bits an encoding fixes (30_encoding.md R75) -/

theorem encodeI_masked (imm : BitVec 12) (a : Reg) (f : BitVec 3) (rd : Reg) (op : BitVec 7) :
    encodeI imm a f rd op &&& 0x0000707F#32 = op.setWidth 32 ||| f.setWidth 32 <<< 12 := by
  refine BitVec.eq_of_getLsbD_eq fun i hi => ?_
  simp only [encodeI, BitVec.getLsbD_and, BitVec.getLsbD_or, BitVec.getLsbD_shiftLeft,
    BitVec.getLsbD_setWidth, getLsbD_placeAt]
  interval_cases i <;> simp

theorem encodeS_masked (imm : BitVec 12) (b a : Reg) (f : BitVec 3) (op : BitVec 7) :
    encodeS imm b a f op &&& 0x0000707F#32 = op.setWidth 32 ||| f.setWidth 32 <<< 12 := by
  refine BitVec.eq_of_getLsbD_eq fun i hi => ?_
  simp only [encodeS, BitVec.getLsbD_and, BitVec.getLsbD_or, BitVec.getLsbD_shiftLeft,
    BitVec.getLsbD_setWidth, getLsbD_placeAt]
  interval_cases i <;> simp

theorem encodeSB_masked (o : BitVec 13) (b a : Reg) (f : BitVec 3) (op : BitVec 7) :
    encodeSB o b a f op &&& 0x0000707F#32 = op.setWidth 32 ||| f.setWidth 32 <<< 12 := by
  refine BitVec.eq_of_getLsbD_eq fun i hi => ?_
  simp only [encodeSB, BitVec.getLsbD_and, BitVec.getLsbD_or, BitVec.getLsbD_shiftLeft,
    BitVec.getLsbD_setWidth, getLsbD_placeAt]
  interval_cases i <;> simp

theorem encodeR_masked (g : BitVec 7) (b a : Reg) (f : BitVec 3) (rd : Reg) (op : BitVec 7) :
    encodeR g b a f rd op &&& 0xFE00707F#32 =
      op.setWidth 32 ||| f.setWidth 32 <<< 12 ||| g.setWidth 32 <<< 25 := by
  refine BitVec.eq_of_getLsbD_eq fun i hi => ?_
  simp only [encodeR, BitVec.getLsbD_and, BitVec.getLsbD_or, BitVec.getLsbD_shiftLeft,
    BitVec.getLsbD_setWidth, getLsbD_placeAt]
  interval_cases i <;> simp

theorem encodeU_masked (v : BitVec 20) (rd : Reg) (op : BitVec 7) :
    encodeU v rd op &&& 0x0000007F#32 = op.setWidth 32 := by
  refine BitVec.eq_of_getLsbD_eq fun i hi => ?_
  simp only [encodeU, BitVec.getLsbD_and, BitVec.getLsbD_or, BitVec.getLsbD_setWidth, getLsbD_placeAt]
  interval_cases i <;> simp

theorem encodeUJ_masked (o : BitVec 21) (rd : Reg) (op : BitVec 7) :
    encodeUJ o rd op &&& 0x0000007F#32 = op.setWidth 32 := by
  refine BitVec.eq_of_getLsbD_eq fun i hi => ?_
  simp only [encodeUJ, BitVec.getLsbD_and, BitVec.getLsbD_or, BitVec.getLsbD_setWidth, getLsbD_placeAt]
  interval_cases i <;> simp

end Sys2Proof.Machine
end

