-- ==== Sys2Proof/Tests/Slice0.lean ====
section
/-! SUPPORT. The model's own tests. Expected values come from 95_test_vectors.md (named V-... and S<n>
there), never from the model. The witnesses at the end show, for every statement of
Certificates/Slice0/Obligations.lean that has hypotheses, values that meet them. -/

namespace Sys2Proof.Tests

open Sys2Proof Sys2Proof.Machine

/-! ### WellFormed: an ill-formed term for each check (30_encoding.md R70, R71) -/

theorem test_wf_refuses_odd_branch_offset : branchOffsetOk 5#13 = false := by decide
theorem test_wf_refuses_odd_jump_offset : jumpOffsetOk 0x1FFFFF#21 = false := by decide
theorem test_wf_refuses_odd_branches :
    ([Instr.beq 1#5 2#5 1#13, .bne 1#5 2#5 3#13, .blt 1#5 2#5 0x1FFF#13, .bge 1#5 2#5 9#13,
      .bltu 1#5 2#5 0x1001#13, .bgeu 1#5 2#5 7#13].all fun i => !i.wf) = true := by decide
theorem test_wf_refuses_odd_jal : Instr.wf (.jal 1#5 1#21) = false := by decide
theorem test_wf_accepts_even_offsets :
    Instr.wf (.beq 0#5 0#5 0x1000#13) = true ∧ Instr.wf (.jal 0#5 0x100000#21) = true := by decide

/-! ### Decode: the word of each mnemonic, as the spec writes it (V-DEC-1) -/

theorem test_decode_lb : decode 0x00030383#32 = .ok (.lb 7#5 6#5 0x000#12) := by decide
theorem test_decode_lh : decode 0x00031583#32 = .ok (.lh 11#5 6#5 0x000#12) := by decide
theorem test_decode_lw : decode 0xFFC12283#32 = .ok (.lw 5#5 2#5 0xFFC#12) := by decide
theorem test_decode_lbu : decode 0x00334403#32 = .ok (.lbu 8#5 6#5 0x003#12) := by decide
theorem test_decode_lhu : decode 0x00035603#32 = .ok (.lhu 12#5 6#5 0x000#12) := by decide
theorem test_decode_sb : decode 0x009300A3#32 = .ok (.sb 9#5 6#5 0x001#12) := by decide
theorem test_decode_sh : decode 0x00931123#32 = .ok (.sh 9#5 6#5 0x002#12) := by decide
theorem test_decode_sw : decode 0xFE112E23#32 = .ok (.sw 1#5 2#5 0xFFC#12) := by decide
theorem test_decode_addi : decode 0x00500093#32 = .ok (.addi 1#5 0#5 0x005#12) := by decide
theorem test_decode_slti : decode 0xFFF32293#32 = .ok (.slti 5#5 6#5 0xFFF#12) := by decide
theorem test_decode_sltiu : decode 0x00133293#32 = .ok (.sltiu 5#5 6#5 0x001#12) := by decide
theorem test_decode_xori : decode 0xFFF34293#32 = .ok (.xori 5#5 6#5 0xFFF#12) := by decide
theorem test_decode_ori : decode 0x0F036293#32 = .ok (.ori 5#5 6#5 0x0F0#12) := by decide
theorem test_decode_andi : decode 0x0FF37293#32 = .ok (.andi 5#5 6#5 0x0FF#12) := by decide
theorem test_decode_slli : decode 0x00431293#32 = .ok (.slli 5#5 6#5 4#5) := by decide
theorem test_decode_srli : decode 0x0012D393#32 = .ok (.srli 7#5 5#5 1#5) := by decide
theorem test_decode_srai : decode 0x4012D313#32 = .ok (.srai 6#5 5#5 1#5) := by decide
theorem test_decode_add : decode 0x002081B3#32 = .ok (.add 3#5 1#5 2#5) := by decide
theorem test_decode_sub : decode 0x402081B3#32 = .ok (.sub 3#5 1#5 2#5) := by decide
theorem test_decode_sll : decode 0x007312B3#32 = .ok (.sll 5#5 6#5 7#5) := by decide
theorem test_decode_slt : decode 0x0002A433#32 = .ok (.slt 8#5 5#5 0#5) := by decide
theorem test_decode_sltu : decode 0x0002B4B3#32 = .ok (.sltu 9#5 5#5 0#5) := by decide
theorem test_decode_xor : decode 0x007342B3#32 = .ok (.xor 5#5 6#5 7#5) := by decide
theorem test_decode_srl : decode 0x007352B3#32 = .ok (.srl 5#5 6#5 7#5) := by decide
theorem test_decode_sra : decode 0x407352B3#32 = .ok (.sra 5#5 6#5 7#5) := by decide
theorem test_decode_or : decode 0x007362B3#32 = .ok (.or 5#5 6#5 7#5) := by decide
theorem test_decode_and : decode 0x007372B3#32 = .ok (.and 5#5 6#5 7#5) := by decide
theorem test_decode_beq : decode 0x00208463#32 = .ok (.beq 1#5 2#5 0x0008#13) := by decide
theorem test_decode_bne : decode 0xFE029CE3#32 = .ok (.bne 5#5 0#5 0x1FF8#13) := by decide
theorem test_decode_blt : decode 0x0062C863#32 = .ok (.blt 5#5 6#5 0x0010#13) := by decide
theorem test_decode_bge : decode 0x0062D863#32 = .ok (.bge 5#5 6#5 0x0010#13) := by decide
theorem test_decode_bltu : decode 0x00506463#32 = .ok (.bltu 0#5 5#5 0x0008#13) := by decide
theorem test_decode_bgeu : decode 0x0062F863#32 = .ok (.bgeu 5#5 6#5 0x0010#13) := by decide
theorem test_decode_jal : decode 0x008000EF#32 = .ok (.jal 1#5 0x000008#21) := by decide
theorem test_decode_jalr : decode 0x00008067#32 = .ok (.jalr 0#5 1#5 0x000#12) := by decide
theorem test_decode_lui : decode 0x123452B7#32 = .ok (.lui 5#5 0x12345#20) := by decide
theorem test_decode_auipc : decode 0x00001597#32 = .ok (.auipc 11#5 0x00001#20) := by decide
theorem test_decode_ecall : decode 0x00000073#32 = .ok (.ecall 0#5 0#5 0x000#12) := by decide

/-! ### Decode: immediate extremes and bit placement (V-DEC-2) -/

theorem test_decode_addi_extremes :
    decode 0x7FF30293#32 = .ok (.addi 5#5 6#5 0x7FF#12) ∧
    decode 0x80030293#32 = .ok (.addi 5#5 6#5 0x800#12) ∧
    decode 0xFFF00093#32 = .ok (.addi 1#5 0#5 0xFFF#12) := by decide
theorem test_decode_sw_extremes :
    decode 0x7E112FA3#32 = .ok (.sw 1#5 2#5 0x7FF#12) ∧
    decode 0x80112023#32 = .ok (.sw 1#5 2#5 0x800#12) ∧
    decode 0x00112FA3#32 = .ok (.sw 1#5 2#5 0x01F#12) ∧
    decode 0x02112023#32 = .ok (.sw 1#5 2#5 0x020#12) := by decide
theorem test_decode_beq_extremes :
    decode 0x7E000FE3#32 = .ok (.beq 0#5 0#5 0x0FFE#13) ∧
    decode 0x80000063#32 = .ok (.beq 0#5 0#5 0x1000#13) ∧
    decode 0x00000163#32 = .ok (.beq 0#5 0#5 0x0002#13) ∧
    decode 0x000000E3#32 = .ok (.beq 0#5 0#5 0x0800#13) ∧
    decode 0xFE000FE3#32 = .ok (.beq 0#5 0#5 0x1FFE#13) ∧
    decode 0xFE628EE3#32 = .ok (.beq 5#5 6#5 0x1FFC#13) := by decide
theorem test_decode_jal_extremes :
    decode 0x7FFFF0EF#32 = .ok (.jal 1#5 0x0FFFFE#21) ∧
    decode 0x800000EF#32 = .ok (.jal 1#5 0x100000#21) ∧
    decode 0x002000EF#32 = .ok (.jal 1#5 0x000002#21) ∧
    decode 0x001000EF#32 = .ok (.jal 1#5 0x000800#21) ∧
    decode 0x000010EF#32 = .ok (.jal 1#5 0x001000#21) ∧
    decode 0xFFDFF06F#32 = .ok (.jal 0#5 0x1FFFFC#21) ∧
    decode 0xFFFFF0EF#32 = .ok (.jal 1#5 0x1FFFFE#21) := by decide
theorem test_decode_lui_extremes :
    decode 0xFFFFF2B7#32 = .ok (.lui 5#5 0xFFFFF#20) ∧
    decode 0x800002B7#32 = .ok (.lui 5#5 0x80000#20) ∧
    decode 0x7FFFF2B7#32 = .ok (.lui 5#5 0x7FFFF#20) ∧
    decode 0x00001037#32 = .ok (.lui 0#5 0x00001#20) := by decide
theorem test_decode_auipc_extremes :
    decode 0x00000297#32 = .ok (.auipc 5#5 0x00000#20) := by decide

/-! ### Words that are not instructions, and ECALL's other words (V-DEC-3) -/

theorem test_decode_errors :
    ([0xFFFFFFFF#32, 0x0FF0000F#32, 0x0000100F#32, 0x022081B3#32, 0x00003003#32, 0x00006003#32,
      0x00007003#32, 0x00003023#32, 0x00002063#32, 0x00003063#32, 0x00009067#32, 0x30529073#32,
      0x00001073#32].all fun w =>
      decide (decode w = .error .unresolved)) = true := by decide
theorem test_decode_more_errors :
    ([0x40001013#32, 0x02001013#32, 0x40001033#32, 0x20000033#32, 0x40002033#32, 0x0000001B#32,
      0x0000003B#32, 0x00000053#32, 0x0000202F#32, 0x00000001#32, 0x00000002#32, 0x00010000#32,
      0x0000007F#32].all fun w =>
      decide (decode w = .error .unresolved)) = true := by decide
theorem test_decode_other_ecall_words :
    decode 0x00100073#32 = .ok (.ecall 0#5 0#5 0x001#12) ∧
    decode 0x30200073#32 = .ok (.ecall 0#5 0#5 0x302#12) ∧
    decode 0x10500073#32 = .ok (.ecall 0#5 0#5 0x105#12) := by decide

/-! ### The record (S2, V-DEC-1) -/

theorem test_record_of_sub :
    (decodeRecord 0x402081B3#32 0x40#32).toOption.map (fun d => (d.rd, d.rs1, d.rs2, d.funct7, d.immediate)) =
      some (some 3#5, some 1#5, some 2#5, some 0b0100000#7, none) := by decide
theorem test_record_of_addi :
    (decodeRecord 0x00500093#32 0x40#32).toOption.map (fun d => (d.rd, d.rs1, d.rs2, d.funct7, d.immediate)) =
      some (some 1#5, some 0#5, none, none, some 5#32) := by decide
theorem test_record_of_srai :
    (decodeRecord 0x4012D313#32 0#32).toOption.map (fun d => (d.encodingType, d.funct7, d.immediate)) =
      some (.i, some 0b0100000#7, some 0x401#32) := by decide
theorem test_record_of_lui :
    (decodeRecord 0x800002B7#32 0#32).toOption.map (fun d => (d.rd, d.rs1, d.funct3, d.immediate)) =
      some (some 5#5, none, none, some 0xFFF80000#32) := by decide

/-! ### One tick of each instruction

`at0 pc w regs words` is launch L0 with the word `w` at `pc` and the registers and memory words of the
vector's "before the tick". -/

def start (l : Launch) (pc : Word) (regs : List (Reg × Word)) (words : List (Nat × Word)) : State :=
  words.foldl (fun s c => s.setMem (s.mem.writeLE c.1 4 c.2))
    (regs.foldl (fun s r => s.setReg r.1 r.2) ((State.resetOf l).setPc pc))

def at0 (pc w : Word) (regs : List (Reg × Word)) (words : List (Nat × Word)) : State :=
  start Launch.l0 pc regs ((pc.toNat, w) :: words)

def after (s : State) : Option State :=
  match step s with
  | .next t => some t
  | .fault _ | .refused _ => none

def pcAndReg (r : Reg) (s : State) : Option (Word × Word) := (after s).map fun t => (t.pc, t.reg r)

def pcAndWord (a : Nat) (s : State) : Option (Word × Word) := (after s).map fun t => (t.pc, t.mem.word a)

def stopAndPc (s : State) : Option (Option StopReason × Word) := (after s).map fun t => (t.stopReason, t.pc)

theorem test_lb :
    pcAndReg 7#5 (at0 0x00000000#32 0x00330383#32 [(6#5, 0x00000100#32)] [(0x00000100, 0x80345678#32)]) =
      some (0x00000004#32, 0xFFFFFF80#32) := by decide
theorem test_lb_positive :
    pcAndReg 7#5 (at0 0x00000000#32 0x00030383#32 [(6#5, 0x00000100#32)] [(0x00000100, 0x12345678#32)]) =
      some (0x00000004#32, 0x00000078#32) := by decide
theorem test_lh :
    pcAndReg 11#5 (at0 0x00000000#32 0x00231583#32 [(6#5, 0x00000100#32)] [(0x00000100, 0x8234FF78#32)]) =
      some (0x00000004#32, 0xFFFF8234#32) := by decide
theorem test_lh_misaligned :
    stopAndPc (at0 0x00000000#32 0x00131283#32 [(6#5, 0x00000100#32)] [(0x00000100, 0x12345678#32)]) =
      some (some (.fatal .dataMisaligned), 0x00000000#32) := by decide
theorem test_lw_negative_displacement :
    pcAndReg 5#5 (at0 0x00000000#32 0xFFC12283#32 [(2#5, 0x00000104#32)] [(0x00000100, 0xCAFEF00D#32)]) =
      some (0x00000004#32, 0xCAFEF00D#32) := by decide
theorem test_lw_misaligned_before_range :
    stopAndPc (at0 0x00000000#32 0x00132283#32 [(6#5, 0x00001000#32)] []) =
      some (some (.fatal .dataMisaligned), 0x00000000#32) := by decide
theorem test_lbu :
    pcAndReg 8#5 (at0 0x00000000#32 0x00334403#32 [(6#5, 0x00000100#32)] [(0x00000100, 0x80345678#32)]) =
      some (0x00000004#32, 0x00000080#32) := by decide
theorem test_lhu :
    pcAndReg 5#5 (at0 0x00000000#32 0x00235283#32 [(6#5, 0x00000100#32)] [(0x00000100, 0x1234FF78#32)]) =
      some (0x00000004#32, 0x00001234#32) := by decide
theorem test_sb :
    pcAndWord 0x00000100 (at0 0x00000000#32 0x009300A3#32 [(6#5, 0x00000100#32), (9#5, 0xFFFFFFFF#32)] [(0x00000100, 0x12345678#32)]) =
      some (0x00000004#32, 0x1234FF78#32) := by decide
theorem test_sb_top_lane :
    pcAndWord 0x00000100 (at0 0x00000000#32 0x009301A3#32 [(6#5, 0x00000100#32), (9#5, 0x000001AB#32)] [(0x00000100, 0x12345678#32)]) =
      some (0x00000004#32, 0xAB345678#32) := by decide
theorem test_sh :
    pcAndWord 0x00000100 (at0 0x00000000#32 0x00931123#32 [(6#5, 0x00000100#32), (9#5, 0xFFFFABCD#32)] [(0x00000100, 0x12345678#32)]) =
      some (0x00000004#32, 0xABCD5678#32) := by decide
theorem test_sw :
    pcAndWord 0x00000100 (at0 0x00000000#32 0xFE112E23#32 [(2#5, 0x00000104#32), (1#5, 0xDEADBEEF#32)] []) =
      some (0x00000004#32, 0xDEADBEEF#32) := by decide
theorem test_sw_out_of_range :
    stopAndPc (at0 0x00000000#32 0x00532023#32 [(6#5, 0x00001000#32), (5#5, 0x00000001#32)] []) =
      some (some (.fatal .dataAccessOutOfRange), 0x00000000#32) := by decide
theorem test_addi_minus_one :
    pcAndReg 5#5 (at0 0x00000000#32 0xFFF30293#32 [(6#5, 0x00000000#32)] []) =
      some (0x00000004#32, 0xFFFFFFFF#32) := by decide
theorem test_addi_wraps :
    pcAndReg 5#5 (at0 0x00000000#32 0x00130293#32 [(6#5, 0x7FFFFFFF#32)] []) =
      some (0x00000004#32, 0x80000000#32) := by decide
theorem test_slti :
    pcAndReg 5#5 (at0 0x00000000#32 0x80032293#32 [(6#5, 0x80000000#32)] []) =
      some (0x00000004#32, 0x00000001#32) := by decide
theorem test_sltiu :
    pcAndReg 5#5 (at0 0x00000000#32 0x80033293#32 [(6#5, 0xFFFFF7FF#32)] []) =
      some (0x00000004#32, 0x00000001#32) := by decide
theorem test_xori :
    pcAndReg 5#5 (at0 0x00000000#32 0x55534293#32 [(6#5, 0xFFFFFFFF#32)] []) =
      some (0x00000004#32, 0xFFFFFAAA#32) := by decide
theorem test_ori :
    pcAndReg 5#5 (at0 0x00000000#32 0x80036293#32 [(6#5, 0x00000001#32)] []) =
      some (0x00000004#32, 0xFFFFF801#32) := by decide
theorem test_andi :
    pcAndReg 5#5 (at0 0x00000000#32 0x80037293#32 [(6#5, 0x12345FFF#32)] []) =
      some (0x00000004#32, 0x12345800#32) := by decide
theorem test_slli :
    pcAndReg 5#5 (at0 0x00000000#32 0x01F31293#32 [(6#5, 0x00000003#32)] []) =
      some (0x00000004#32, 0x80000000#32) := by decide
theorem test_srli :
    pcAndReg 7#5 (at0 0x00000000#32 0x0012D393#32 [(5#5, 0xFFFFFFF8#32)] []) =
      some (0x00000004#32, 0x7FFFFFFC#32) := by decide
theorem test_srai :
    pcAndReg 5#5 (at0 0x00000000#32 0x40435293#32 [(6#5, 0x87654321#32)] []) =
      some (0x00000004#32, 0xF8765432#32) := by decide
theorem test_add :
    pcAndReg 3#5 (at0 0x00000000#32 0x002081B3#32 [(1#5, 0x00000005#32), (2#5, 0x00000003#32)] []) =
      some (0x00000004#32, 0x00000008#32) := by decide
theorem test_add_same_register :
    pcAndReg 5#5 (at0 0x00000000#32 0x005282B3#32 [(5#5, 0x40000001#32)] []) =
      some (0x00000004#32, 0x80000002#32) := by decide
theorem test_sub :
    pcAndReg 3#5 (at0 0x00000000#32 0x402081B3#32 [(1#5, 0x00000003#32), (2#5, 0x00000005#32)] []) =
      some (0x00000004#32, 0xFFFFFFFE#32) := by decide
theorem test_sll :
    pcAndReg 5#5 (at0 0x00000000#32 0x007312B3#32 [(6#5, 0x00000001#32), (7#5, 0x00000024#32)] []) =
      some (0x00000004#32, 0x00000010#32) := by decide
theorem test_slt :
    pcAndReg 5#5 (at0 0x00000000#32 0x007322B3#32 [(6#5, 0x80000000#32), (7#5, 0x7FFFFFFF#32)] []) =
      some (0x00000004#32, 0x00000001#32) := by decide
theorem test_sltu :
    pcAndReg 5#5 (at0 0x00000000#32 0x007332B3#32 [(6#5, 0x80000000#32), (7#5, 0x7FFFFFFF#32), (5#5, 0x00000009#32)] []) =
      some (0x00000004#32, 0x00000000#32) := by decide
theorem test_xor :
    pcAndReg 5#5 (at0 0x00000000#32 0x007342B3#32 [(6#5, 0xFF00FF00#32), (7#5, 0x0FF00FF0#32)] []) =
      some (0x00000004#32, 0xF0F0F0F0#32) := by decide
theorem test_srl :
    pcAndReg 5#5 (at0 0x00000000#32 0x007352B3#32 [(6#5, 0x80000000#32), (7#5, 0x00000021#32)] []) =
      some (0x00000004#32, 0x40000000#32) := by decide
theorem test_sra :
    pcAndReg 5#5 (at0 0x00000000#32 0x407352B3#32 [(6#5, 0x80000000#32), (7#5, 0x00000021#32)] []) =
      some (0x00000004#32, 0xC0000000#32) := by decide
theorem test_or :
    pcAndReg 5#5 (at0 0x00000000#32 0x007362B3#32 [(6#5, 0xFF00FF00#32), (7#5, 0x0FF00FF0#32)] []) =
      some (0x00000004#32, 0xFFF0FFF0#32) := by decide
theorem test_and :
    pcAndReg 5#5 (at0 0x00000000#32 0x007372B3#32 [(6#5, 0xFF00FF00#32), (7#5, 0x0FF00FF0#32)] []) =
      some (0x00000004#32, 0x0F000F00#32) := by decide
theorem test_beq_taken :
    pcAndReg 1#5 (at0 0x00000040#32 0x00208463#32 [(1#5, 0x00000007#32), (2#5, 0x00000007#32)] []) =
      some (0x00000048#32, 0x00000007#32) := by decide
theorem test_beq_not_taken :
    pcAndReg 1#5 (at0 0x00000040#32 0x00208463#32 [(1#5, 0x00000007#32), (2#5, 0x00000008#32)] []) =
      some (0x00000044#32, 0x00000007#32) := by decide
theorem test_bne_backward :
    pcAndReg 5#5 (at0 0x00000010#32 0xFE029CE3#32 [(5#5, 0x00000004#32)] []) =
      some (0x00000008#32, 0x00000004#32) := by decide
theorem test_blt_signed :
    pcAndReg 5#5 (at0 0x00000020#32 0x0062C863#32 [(5#5, 0x80000000#32), (6#5, 0x7FFFFFFF#32)] []) =
      some (0x00000030#32, 0x80000000#32) := by decide
theorem test_bge_equal :
    pcAndReg 5#5 (at0 0x00000020#32 0x0062D863#32 [(5#5, 0x00000007#32), (6#5, 0x00000007#32)] []) =
      some (0x00000030#32, 0x00000007#32) := by decide
theorem test_bltu :
    pcAndReg 5#5 (at0 0x00000014#32 0x00506463#32 [(5#5, 0xFFFFFFF8#32)] []) =
      some (0x0000001C#32, 0xFFFFFFF8#32) := by decide
theorem test_bgeu :
    pcAndReg 5#5 (at0 0x00000020#32 0x0062F863#32 [(5#5, 0xFFFFFFFF#32), (6#5, 0x00000001#32)] []) =
      some (0x00000030#32, 0xFFFFFFFF#32) := by decide
theorem test_jal :
    pcAndReg 1#5 (at0 0x00000000#32 0x008000EF#32 [] []) =
      some (0x00000008#32, 0x00000004#32) := by decide
theorem test_jal_backward :
    pcAndReg 1#5 (at0 0x00000020#32 0x800000EF#32 [] []) =
      some (0xFFF00020#32, 0x00000024#32) := by decide
theorem test_jalr_is_fatal :
    stopAndPc (at0 0x00000020#32 0x004280E7#32 [(5#5, 0x00000040#32), (1#5, 0x00000009#32)] []) =
      some (some (.fatal .unimplementedControlPath), 0x00000020#32) := by decide
theorem test_lui :
    pcAndReg 5#5 (at0 0x00000000#32 0x123452B7#32 [] []) =
      some (0x00000004#32, 0x12345000#32) := by decide
theorem test_auipc :
    pcAndReg 5#5 (at0 0x00000010#32 0x80000297#32 [] []) =
      some (0x00000014#32, 0x80000010#32) := by decide
theorem test_ecall_halts_at_ten :
    stopAndPc (at0 0x00000020#32 0x00000073#32 [(10#5, 0x0000000A#32)] []) =
      some (some (.halt .ecallHalt), 0x00000020#32) := by decide
theorem test_ecall_goes_on :
    pcAndReg 10#5 (at0 0x00000020#32 0x00000073#32 [(10#5, 0x0000010A#32)] []) =
      some (0x00000024#32, 0x0000010A#32) := by decide

/-! ### From reset: the word placed at `pc` runs as the first instruction (log 4) -/

theorem test_first_step_after_reset :
    pcAndReg 1#5 (State.reset.withFetchWord 32 0x00500093) = some (0x00000004#32, 0x00000005#32) := by decide
theorem test_decodeTableWord : decodeTableWord 32 0x00500093 = some (.addi 1#5 0#5 5#12) := by decide
theorem test_reset_with_nothing_placed :
    stopAndPc State.reset = some (some (.halt .sentinel), 0x00000000#32) := by decide

/-! ### Stop checks (V-ENG-1) -/

def above : State := start { Launch.l0 with pcMax := 0x0000000C#32 } 0x00000010#32 [] [(0x10, 0x00500093#32)]
def unmapped : State := start { Launch.l0 with pcMax := 0xFFFFFFFF#32 } 0x00001000#32 [] []
def misaligned : State := start Launch.l0 0x00000022#32 [] []
def undecoded : State := at0 0x00000010#32 0xFFFFFFFF#32 [] []
def narrow0 : Launch := { Launch.l0 with dataBase := 0x100, dataLimit := 0x200 }

theorem test_above_the_bound : stopAndPc above = some (some (.halt .pcRange), 0x00000010#32) := by decide
theorem test_unmapped : stopAndPc unmapped = some (some (.fatal .fetchOutOfRange), 0x00001000#32) := by decide
theorem test_misaligned : stopAndPc misaligned = some (some (.fatal .fetchMisaligned), 0x00000022#32) := by decide
theorem test_undecoded : stopAndPc undecoded = some (some (.fatal .decodeError), 0x00000010#32) := by decide
theorem test_terminal : step { State.reset with run := .halted } = .fault .halted := rfl
theorem test_bad_launch_is_refused :
    step (State.resetOf { Launch.l0 with memBase := 2 }) = .refused .launchOutsideSpec := rfl
theorem test_data_segment_limits :
    pcAndReg 5#5 (start narrow0 0#32 [(6#5, 0x00000200#32)] [(0, 0xFFF30283#32), (0x1FC, 0xAB000000#32)]) =
      some (0x00000004#32, 0xFFFFFFAB#32) ∧
    stopAndPc (start narrow0 0#32 [(6#5, 0x00000200#32)] [(0, 0x00030283#32)]) =
      some (some (.fatal .dataAccessOutOfRange), 0x00000000#32) := by decide
theorem test_memory_keeps_one_form :
    (Memory.writeLE [] 0x100 4 0x12005678#32).writeLE 0x102 2 0#32 = [(0x100, 0x78#8), (0x101, 0x56#8)] := by
  decide

/-! ### Witnesses: encoding and decoding -/

theorem witness_DecodeOfEncodeIsTheInstruction :
    Instr.wf (.beq 31#5 0#5 0x1FFE#13) = true ∧ Instr.wf (.jal 31#5 0x1FFFFE#21) = true ∧
      Instr.wf (.srai 31#5 31#5 31#5) = true := by decide
theorem witness_EncodeOfDecodeIsTheWord : decode 0xFFFFF0EF#32 = .ok (.jal 1#5 (-2#21)) := by decide
theorem witness_LayoutsPlaceEveryField :
    ∃ row ∈ instructionTable, row.funct3 = some 0b101#3 ∧ row.funct7 = some 0b0100000#7 :=
  ⟨⟨.sra, .r, 0b0110011#7, some 0b101#3, some 0b0100000#7, 0x40005033#32, 0xFE00707F#32⟩, by decide, rfl, rfl⟩
theorem witness_WordIsRowsInstructionIffMaskMatches :
    ∃ row ∈ instructionTable, 0xFFFFF06F#32 &&& row.maskWord = row.matchWord :=
  ⟨⟨.jal, .uj, 0b1101111#7, none, none, 0x0000006F#32, 0x0000007F#32⟩, by decide, by decide⟩
theorem witness_AtMostOneRowMatchesAWord :
    ∃ r ∈ instructionTable, ∃ r' ∈ instructionTable, 0x40005013#32 &&& r.maskWord = r.matchWord ∧
      0x40005013#32 &&& r'.maskWord = r'.matchWord :=
  ⟨⟨.srai, .i, 0b0010011#7, some 0b101#3, some 0b0100000#7, 0x40005013#32, 0xFE00707F#32⟩, by decide,
    ⟨.srai, .i, 0b0010011#7, some 0b101#3, some 0b0100000#7, 0x40005013#32, 0xFE00707F#32⟩, by decide,
    by decide, by decide⟩
theorem witness_RecordHasExactlyTheTypesFields :
    ([0x402081B3#32, 0x00500093#32, 0x4012D313#32, 0xFE112E23#32, 0x123452B7#32, 0xFE029CE3#32,
      0x008000EF#32].map fun w => (decodeRecord w 0#32).toOption.map (·.encodingType)) =
      [some .r, some .i, some .i, some .s, some .u, some .sb, some .uj] := by decide
theorem witness_ImmediatesOfIAndSTypes : (0xFFF00093#32 : Word).extractLsb' 20 12 = 0xFFF#12 := by decide
theorem witness_ImmediatesOfUSBAndUJTypes :
    (decodeRecord 0x80000063#32 0x20#32).toOption.map (·.immediate) = some (some 0xFFFFF000#32) := by decide
theorem witness_OtherWordsDoNotDecode :
    (0x00000001#32 : Word).extractLsb' 0 2 ≠ 0b11#2 ∧ opcodeOf 0x0FF0000F#32 = 0b0001111#7 ∧
    (opcodeOf 0x00007003#32 = 0b0000011#7 ∧ funct3Of 0x00007003#32 = 0b111#3) ∧
    (opcodeOf 0x00003023#32 = 0b0100011#7 ∧ funct3Of 0x00003023#32 = 0b011#3) ∧
    (opcodeOf 0x00003063#32 = 0b1100011#7 ∧ funct3Of 0x00003063#32 = 0b011#3) ∧
    (opcodeOf 0x02001013#32 = 0b0010011#7 ∧ funct3Of 0x02001013#32 = 0b001#3 ∧
      funct7Of 0x02001013#32 ≠ 0#7) ∧
    (opcodeOf 0x02005013#32 = 0b0010011#7 ∧ funct3Of 0x02005013#32 = 0b101#3 ∧
      funct7Of 0x02005013#32 = 0b0000001#7) ∧
    (opcodeOf 0x022081B3#32 = 0b0110011#7 ∧ funct7Of 0x022081B3#32 = 0b0000001#7) ∧
    (opcodeOf 0x40002033#32 = 0b0110011#7 ∧ funct7Of 0x40002033#32 = 0b0100000#7 ∧
      funct3Of 0x40002033#32 = 0b010#3) ∧
    (opcodeOf 0x00009067#32 = 0b1100111#7 ∧ funct3Of 0x00009067#32 = 0b001#3) ∧
    (opcodeOf 0x30529073#32 = 0b1110011#7 ∧ funct3Of 0x30529073#32 = 0b001#3) ∧
    opcodeOf 0x0000007F#32 = 0b1111111#7 := by decide
theorem witness_EveryZeroFunct3SystemWordIsEcall :
    opcodeOf 0x10500073#32 = 0b1110011#7 ∧ funct3Of 0x10500073#32 = 0b000#3 := by decide

/-! ### Witnesses: loads and stores, at both ends of the data segment -/

/-- Launch L0 with x6 at the first byte past the data segment, x7 at its last byte, x8 at its last
halfword, x9 at its last word. -/
def edge (w : Word) : State :=
  at0 0#32 w [(6#5, 0x00001000#32), (7#5, 0x00000FFF#32), (8#5, 0x00000FFE#32), (9#5, 0x00000FFC#32)] []

theorem witness_LoadsReadTheirLanes :
    ((edge 0#32).launch.inData ((effAddr (edge 0#32) 7#5 0#12).toNat / 4 * 4) = true ∧
      (effAddr (edge 0#32) 7#5 0#12).toNat % 4 = 3) ∧
    ((edge 0#32).launch.inData ((effAddr (edge 0#32) 8#5 0#12).toNat / 4 * 4) = true ∧
      (effAddr (edge 0#32) 8#5 0#12).toNat % 2 = 0) ∧
    ((edge 0#32).launch.inData ((effAddr (edge 0#32) 9#5 0#12).toNat / 4 * 4) = true ∧
      (effAddr (edge 0#32) 9#5 0#12).toNat % 4 = 0) ∧
    (edge 0#32).launch.inData ((effAddr (edge 0#32) 0#5 0#12).toNat / 4 * 4) = true := by decide
theorem witness_StoresWriteTheirLanes :
    ((edge 0#32).launch.inData ((effAddr (edge 0#32) 6#5 (-1#12)).toNat / 4 * 4) = true) ∧
    ((edge 0#32).launch.inData ((effAddr (edge 0#32) 6#5 (-2#12)).toNat / 4 * 4) = true ∧
      (effAddr (edge 0#32) 6#5 (-2#12)).toNat % 2 = 0) ∧
    ((edge 0#32).launch.inData ((effAddr (edge 0#32) 6#5 (-4#12)).toNat / 4 * 4) = true ∧
      (effAddr (edge 0#32) 6#5 (-4#12)).toNat % 4 = 0) := by decide
theorem witness_DataAccessChecksInOrder :
    ¬ (Launch.l0.dataBase ≤ (effAddr (edge 0#32) 6#5 0#12).toNat / 4 * 4 ∧
      (effAddr (edge 0#32) 6#5 0#12).toNat / 4 * 4 + 3 < Launch.l0.dataLimit) ∧
    (effAddr (edge 0#32) 6#5 0#12).toNat % 4 = 0 ∧
    (effAddr (edge 0#32) 6#5 1#12).toNat % 2 ≠ 0 ∧ (effAddr (edge 0#32) 6#5 2#12).toNat % 4 ≠ 0 ∧
    (effAddr (edge 0#32) 6#5 2#12).toNat % 2 = 0 := by decide

/-! ### Witnesses: branches, jumps, system -/

theorem witness_EvenOffsets :
    (0x1000#13 : BitVec 13).getLsbD 0 = false ∧ (0x0FFE#13 : BitVec 13).getLsbD 0 = false ∧
      (0x100000#21 : BitVec 21).getLsbD 0 = false := by decide
theorem witness_JalrIsFatal : opcodeOf 0x00009067#32 = 0b1100111#7 ∧ funct3Of 0x00009067#32 ≠ 0b000#3 := by
  decide
theorem witness_EcallHaltsOnCodesZeroAndTen :
    State.reset.reg 10#5 = 0x00000000#32 ∧ (State.reset.setReg 10#5 0x0000000A#32).reg 10#5 = 0x0000000A#32 := by
  decide
theorem witness_EcallGoesOnOtherwise :
    ([0x00000001#32, 0x00000009#32, 0x0000000B#32, 0x0000010A#32].all fun c =>
      (State.reset.setReg 10#5 c).reg 10#5 != 0x00000000#32 &&
        (State.reset.setReg 10#5 c).reg 10#5 != 0x0000000A#32) = true := by decide

/-! ### Witnesses: frames -/

theorem witness_FrameOfRegisterWriters :
    Machine.Instr.dest (.lw 5#5 6#5 0#12) = some 5#5 ∧ Machine.Instr.dest (.jal 0#5 0#21) = some 0#5 ∧
    (∃ t, exec (.jal 0#5 0#21) (edge 0#32) = .next t ∧ t.run = .running) ∧
    (∃ t, exec (.lw 5#5 6#5 0#12) (edge 0#32) = .next t ∧ t.run = .faulted) ∧
    (edge 0#32).run = .running :=
  ⟨rfl, rfl, ⟨_, rfl, rfl⟩, ⟨_, rfl, rfl⟩, rfl⟩
theorem witness_FrameOfStores :
    (∃ t, exec (.sw 6#5 9#5 0#12) (edge 0#32) = .next t ∧ t.run = .running) ∧
    ∃ t, exec (.sh 6#5 7#5 0#12) (edge 0#32) = .next t ∧ t.run = .faulted :=
  ⟨⟨_, rfl, rfl⟩, ⟨_, rfl, rfl⟩⟩
theorem witness_FrameOfControlTransfers :
    (∃ t, exec (.bgeu 0#5 0#5 8#13) (edge 0#32) = .next t) ∧ (∃ t, exec (.jalr 1#5 5#5 4#12) (edge 0#32) = .next t) ∧
      ∃ t, exec (.ecall 0#5 0#5 0#12) (edge 0#32) = .next t :=
  ⟨⟨_, rfl⟩, ⟨_, rfl⟩, ⟨_, rfl⟩⟩

/-! ### Witnesses: the engine -/

/-- The last mapped word, at the bound itself. -/
def last : State := at0 0x00000FFC#32 0x00500093#32 [] []

theorem witness_StepRunsTheDecodedInstruction :
    last.launch.ok = true ∧ last.run = .running ∧ last.pc.toNat ≤ last.launch.pcMax.toNat ∧
      last.pc.toNat % 4 = 0 ∧ last.launch.mapped last.pc.toNat = true ∧
      decode (last.mem.word last.pc.toNat) = .ok (.addi 1#5 0#5 5#12) := by decide
theorem witness_PlacedWordIsRunNext :
    State.reset.launch.ok = true ∧ State.reset.run = .running ∧
      State.reset.pc.toNat ≤ State.reset.launch.pcMax.toNat ∧ State.reset.pc.toNat % 4 = 0 ∧
      State.reset.launch.mapped State.reset.pc.toNat = true ∧
      decodeTableWord 32 0x00000073 = some (.ecall 0#5 0#5 0#12) := by decide
theorem witness_StopChecksInOrder :
    (above.launch.ok = true ∧ above.run = .running ∧ above.launch.pcMax.toNat < above.pc.toNat) ∧
    (misaligned.launch.ok = true ∧ misaligned.run = .running ∧
      misaligned.pc.toNat ≤ misaligned.launch.pcMax.toNat ∧ misaligned.pc.toNat % 4 ≠ 0) ∧
    (unmapped.launch.ok = true ∧ unmapped.run = .running ∧
      unmapped.pc.toNat ≤ unmapped.launch.pcMax.toNat ∧ unmapped.pc.toNat % 4 = 0 ∧
      ¬ (unmapped.launch.memBase ≤ unmapped.pc.toNat ∧
        unmapped.pc.toNat + 3 < unmapped.launch.memBase + 4 * unmapped.launch.memWords)) ∧
    (State.reset.launch.ok = true ∧ State.reset.mem.word State.reset.pc.toNat = 0x00000000#32) ∧
    (undecoded.launch.ok = true ∧ undecoded.mem.word undecoded.pc.toNat ≠ 0x00000000#32 ∧
      decode (undecoded.mem.word undecoded.pc.toNat) = .error .unresolved) := by decide
theorem witness_FatalStopCancelsEveryWrite :
    misaligned.run = .running ∧ ∃ t, step misaligned = .next t ∧ t.run = .faulted := ⟨rfl, _, rfl, rfl⟩
theorem witness_NormalHaltKeepsTheState :
    above.run = .running ∧ ∃ t, step above = .next t ∧ t.run = .halted := ⟨rfl, _, rfl, rfl⟩
theorem witness_TerminalStatesHaveNoStep :
    State.reset.launch.ok = true ∧ (State.reset.stopAs .halted (.halt .sentinel)).run = .halted ∧
      (State.reset.stopAs .faulted (.fatal .decodeError)).run = .faulted := by decide
theorem witness_RunStateTransitions :
    (∃ t, step { State.reset with run := .reset } = .next t ∧ t.run = .running) ∧
    (∃ t, step last = .next t ∧ t.run = .running) := ⟨⟨_, rfl, rfl⟩, ⟨_, rfl, rfl⟩⟩
theorem witness_StepKeepsTheInvariant : last.Inv ∧ ∃ t, step last = .next t :=
  ⟨⟨by decide, by decide, by decide, by decide, by decide⟩, _, rfl⟩
theorem witness_TerminationSignalTellsTheStop :
    misaligned.Inv ∧ (misaligned.stopAs .faulted (.fatal .fetchMisaligned)).Inv ∧
      (last.stopAs .halted (.halt .pcRange)).Inv :=
  ⟨⟨by decide, by decide, by decide, by decide, by decide⟩,
    ⟨by decide, by decide, by decide, by decide, by decide⟩,
    ⟨by decide, by decide, by decide, by decide, by decide⟩⟩
theorem witness_LaunchOk : narrow0.ok = true := by decide
theorem witness_ResetStateStepsToRunning :
    ({ State.reset with run := .reset } : State).launch.ok = true ∧
      ({ State.reset with run := .reset } : State).run = .reset := by decide
theorem witness_LaunchOutsideTheConstraintsIsRefused :
    (State.resetOf { Launch.l0 with memBase := 2 }).launch.ok = false := by decide
theorem witness_UnreachableFatalCausesNeverArise :
    misaligned.stopReason ≠ some (.fatal .invalidRegisterIndex) ∧ ∃ t, step misaligned = .next t :=
  ⟨by decide, _, rfl⟩
theorem witness_TickGoesOn : last.run = .running ∧ ∃ t, step last = .next t ∧ t.run = .running :=
  ⟨rfl, _, rfl, rfl⟩

/-! ### Witnesses: memory -/

theorem witness_ReadAfterWrite :
    (∃ m, memWrite State.reset 0x00000FFC#32 .word 0x12345678#32 = .ok m) ∧
    ((0x00000FFA#32 : Word).toNat + Width.half.bytes ≤ (0x00000FFC#32 : Word).toNat) ∧
    ((0x00000FF8#32 : Word).toNat + Width.word.bytes ≤ (0x00000FFC#32 : Word).toNat) := ⟨⟨_, rfl⟩, by decide, by decide⟩

/-- V-ENG-2 E7 at its third tick: the store's word is the next one fetched. -/
def selfModifying : State := at0 0x00000008#32 0x00502623#32 [(5#5, 0x00100093#32)] []

theorem witness_StoredWordIsFetchedNext :
    selfModifying.launch.ok = true ∧ selfModifying.run = .running ∧
    (∃ t, exec (.sw 5#5 0#5 12#12) selfModifying = .next t ∧ t.run = .running ∧
      t.pc = effAddr selfModifying 0#5 12#12 ∧ t.pc.toNat ≤ selfModifying.launch.pcMax.toNat) ∧
    decode (selfModifying.reg 5#5) = .ok (.addi 1#5 0#5 1#12) :=
  ⟨by decide, rfl, ⟨_, rfl, rfl, by decide, by decide⟩, by decide⟩
theorem test_stored_word_is_fetched_next :
    ((after selfModifying).bind after).map (fun t => (t.pc, t.reg 1#5)) = some (0x00000010#32, 1#32) := by decide
theorem witness_BytesOutsideTheDataSegmentNeverChange :
    (∃ t, step (start narrow0 0#32 [(6#5, 0x00000100#32), (5#5, 1#32)] [(0, 0x00532023#32)]) = .next t) ∧
    ¬ (narrow0.dataBase ≤ 0xFF ∧ 0xFF < narrow0.dataLimit) ∧
    ¬ (narrow0.dataBase ≤ 0x200 ∧ 0x200 < narrow0.dataLimit) := ⟨⟨_, rfl⟩, by decide, by decide⟩

end Sys2Proof.Tests
end

section
/-! PROOFS. The statements about instruction words (30_encoding.md): the I-type and S-type immediates,
the rows of the table, and the layouts. -/

namespace Sys2Proof

/-! ### Immediate generators, bit by bit (R66, R67) -/

theorem getLsbD_immIField (w : Word) {j : Nat} (hj : j < 12) :
    (immIField w).getLsbD j = w.getLsbD (20 + j) := by
  simp [immIField, hj]

theorem getLsbD_immSField (w : Word) {j : Nat} (hj : j < 12) :
    (immSField w).getLsbD j = w.getLsbD (if j < 5 then 7 + j else 25 + (j - 5)) := by
  simp only [immSField, BitVec.getLsbD_or, getLsbD_placeAt, BitVec.getLsbD_extractLsb']
  by_cases h : j < 5
  · simp [h, hj]
  · simp [h, hj, show j - 5 < 7 by omega]

theorem getLsbD_immI (w : Word) {j : Nat} (hj : j < 32) :
    (immI w).getLsbD j = w.getLsbD (if j < 11 then 20 + j else 31) := by
  rw [immI, Machine.getLsbD_sext12 _ _ hj, getLsbD_immIField _ (by split <;> omega)]
  split <;> rfl

theorem getLsbD_immS (w : Word) {j : Nat} (hj : j < 32) :
    (immS w).getLsbD j =
      w.getLsbD (if j < 5 then 7 + j else if j < 11 then 25 + (j - 5) else 31) := by
  rw [immS, Machine.getLsbD_sext12 _ _ hj, getLsbD_immSField _ (by split <;> omega)]
  congr 1
  split_ifs <;> omega

theorem toInt_sext12_bounds (imm : BitVec 12) :
    -2048 ≤ (sext imm).toInt ∧ (sext imm).toInt ≤ 2047 := by
  rw [Machine.toInt_sext (by decide)]
  have hlow := BitVec.le_toInt imm
  have hhigh := BitVec.toInt_lt (x := imm)
  omega

/-- Settles O9: both generators are the sign extension of their 12-bit field. -/
theorem immediatesOfIAndSTypes : Obligations.ImmediatesOfIAndSTypes := by
  refine ⟨fun w j hj => ⟨getLsbD_immI w hj, getLsbD_immS w hj⟩,
    fun w => toInt_sext12_bounds (immIField w), fun w => toInt_sext12_bounds (immSField w),
    by decide, fun w (h : immIField w = 0xFFF#12) => ?_⟩
  rw [immI, h]
  decide

/-! ### The rows of the table (R73 to R75) -/

/-- The bits a row's discriminators look at. -/
def TableRow.discriminatorMask (r : TableRow) : Word :=
  match r.funct3, r.funct7 with
  | none, _ => 0x0000007F#32
  | some _, none => 0x0000707F#32
  | some _, some _ => 0xFE00707F#32

/-- The values a row's discriminators require, in their places. -/
def TableRow.discriminatorMatch (r : TableRow) : Word :=
  match r.funct3, r.funct7 with
  | none, _ => r.opcode.setWidth 32
  | some f, none => r.opcode.setWidth 32 ||| f.setWidth 32 <<< 12
  | some f, some g => r.opcode.setWidth 32 ||| f.setWidth 32 <<< 12 ||| g.setWidth 32 <<< 25

/-- In the table, mask and match say the same as the discriminators. -/
theorem table_mask_match : ∀ r ∈ instructionTable,
    r.maskWord = r.discriminatorMask ∧ r.matchWord = r.discriminatorMatch ∧
      (r.funct3 = none → r.funct7 = none) := by
  decide

theorem accepts_iff {r : TableRow} {w : Word} :
    r.accepts w = true ↔ opcodeOf w = r.opcode ∧ (∀ f, r.funct3 = some f → funct3Of w = f) ∧
      (∀ g, r.funct7 = some g → funct7Of w = g) := by
  simp [TableRow.accepts, Option.all_eq_true, and_assoc]

/-- A row accepts a word by its discriminators exactly when `word & mask == match` (R75). -/
theorem accepts_iff_masked {r : TableRow} (hr : r ∈ instructionTable) (w : Word) :
    r.accepts w = true ↔ w &&& r.maskWord = r.matchWord := by
  obtain ⟨hmask, hmatch, hnone⟩ := table_mask_match r hr
  rw [accepts_iff, hmask, hmatch, TableRow.discriminatorMask, TableRow.discriminatorMatch]
  cases h3 : r.funct3 with
  | none => simp [hnone h3, and_mask_opcode]
  | some f =>
    cases h7 : r.funct7 with
    | none => simp [and_mask_funct3]
    | some g => simp [and_mask_funct7]

/-- Two different rows differ in a bit that both look at. -/
theorem table_rows_differ : ∀ r ∈ instructionTable, ∀ r' ∈ instructionTable,
    r.matchWord &&& r'.maskWord = r'.matchWord &&& r.maskWord → r = r' := by
  decide

theorem row_unique_of_masked {w : Word} {r r' : TableRow} (hr : r ∈ instructionTable)
    (hr' : r' ∈ instructionTable) (h : w &&& r.maskWord = r.matchWord)
    (h' : w &&& r'.maskWord = r'.matchWord) : r = r' := by
  refine table_rows_differ r hr r' hr' ?_
  rw [← h, ← h', BitVec.and_assoc, BitVec.and_comm r.maskWord, ← BitVec.and_assoc]

theorem row_unique_of_accepts {w : Word} {r r' : TableRow} (hr : r ∈ instructionTable)
    (hr' : r' ∈ instructionTable) (h : r.accepts w = true) (h' : r'.accepts w = true) : r = r' :=
  row_unique_of_masked hr hr' ((accepts_iff_masked hr w).1 h) ((accepts_iff_masked hr' w).1 h')

theorem row_unique_of_mnemonic {r r' : TableRow} (hr : r ∈ instructionTable)
    (hr' : r' ∈ instructionTable) (h : r.mnemonic = r'.mnemonic) : r = r' :=
  List.inj_on_of_nodup_map (f := TableRow.mnemonic) (l := instructionTable) (by decide) hr hr' h

/-- The row that accepts a word is the one the decoder reads it by. -/
theorem decode_of_accepts {w : Word} {r : TableRow} (hr : r ∈ instructionTable)
    (h : r.accepts w = true) : decode w = .ok (operandsOf r.mnemonic w) := by
  have hfind : instructionTable.find? (·.accepts w) = some r := by
    cases hf : instructionTable.find? (·.accepts w) with
    | none => exact absurd h (List.find?_eq_none.1 hf r hr)
    | some r' =>
      have hacc : r'.accepts w = true := by simpa using List.find?_some hf
      rw [row_unique_of_accepts hr (List.mem_of_find?_eq_some hf) h hacc]
  simp [decode, lookupMnemonic, hfind]

/-- Settles O5: only one row accepts a word, and a row accepts by its discriminators as by its mask. -/
theorem wordIsRowsInstructionIffMaskMatches : Obligations.WordIsRowsInstructionIffMaskMatches := by
  refine ⟨fun row hrow w => ?_, by decide⟩
  rw [← accepts_iff_masked hrow]
  constructor
  · rintro ⟨i, hdecode, hmn⟩
    obtain ⟨r, hr, haccepts, rfl⟩ := decode_row hdecode
    rw [operandsOf_mnemonic] at hmn
    rwa [← row_unique_of_mnemonic hr hrow hmn]
  · exact fun h => ⟨_, decode_of_accepts hrow h, operandsOf_mnemonic _ _⟩

/-! ### The layouts (R63) -/

/-- A field stands where it was put. -/
theorem extractLsb'_placeAt_same {n k m : Nat} (v : BitVec m) (h : k + m ≤ n) :
    (placeAt n k v).extractLsb' k m = v := by
  refine BitVec.eq_of_getLsbD_eq fun i hi => ?_
  rw [BitVec.getLsbD_extractLsb', getLsbD_placeAt]
  simp [hi, show k + i < n by omega]

/-- A field leaves the bits below it and above it clear. -/
theorem extractLsb'_placeAt_apart {n k m a b : Nat} (v : BitVec m) (h : a + b ≤ k ∨ k + m ≤ a) :
    (placeAt n k v).extractLsb' a b = 0#b := by
  refine BitVec.eq_of_getLsbD_eq fun i hi => ?_
  rw [BitVec.getLsbD_extractLsb', getLsbD_placeAt]
  obtain h | h := h
  · simp [show a + i < k by omega]
  · simp [BitVec.getLsbD_of_ge v (a + i - k) (by omega)]

theorem encodeS_places (imm : BitVec 12) (b a : Reg) (f3 : BitVec 3) (op : BitVec 7) :
    (encodeS imm b a f3 op).extractLsb' 25 7 = imm.extractLsb' 5 7 ∧
      (encodeS imm b a f3 op).extractLsb' 7 5 = imm.extractLsb' 0 5 ∧
      (encodeS imm b a f3 op).extractLsb' 20 5 = b ∧ (encodeS imm b a f3 op).extractLsb' 15 5 = a := by
  simp [encodeS, BitVec.extractLsb'_or, extractLsb'_placeAt_same, extractLsb'_placeAt_apart]

theorem encodeSB_places (o : BitVec 13) (b a : Reg) (f3 : BitVec 3) (op : BitVec 7) :
    (encodeSB o b a f3 op).extractLsb' 31 1 = o.extractLsb' 12 1 ∧
      (encodeSB o b a f3 op).extractLsb' 25 6 = o.extractLsb' 5 6 ∧
      (encodeSB o b a f3 op).extractLsb' 8 4 = o.extractLsb' 1 4 ∧
      (encodeSB o b a f3 op).extractLsb' 7 1 = o.extractLsb' 11 1 ∧
      (encodeSB o b a f3 op).extractLsb' 20 5 = b ∧ (encodeSB o b a f3 op).extractLsb' 15 5 = a := by
  simp [encodeSB, BitVec.extractLsb'_or, extractLsb'_placeAt_same, extractLsb'_placeAt_apart]

theorem encodeUJ_places (o : BitVec 21) (rd : Reg) (op : BitVec 7) :
    (encodeUJ o rd op).extractLsb' 31 1 = o.extractLsb' 20 1 ∧
      (encodeUJ o rd op).extractLsb' 21 10 = o.extractLsb' 1 10 ∧
      (encodeUJ o rd op).extractLsb' 20 1 = o.extractLsb' 11 1 ∧
      (encodeUJ o rd op).extractLsb' 12 8 = o.extractLsb' 12 8 ∧
      (encodeUJ o rd op).extractLsb' 7 5 = rd := by
  simp [encodeUJ, BitVec.extractLsb'_or, extractLsb'_placeAt_same, extractLsb'_placeAt_apart]

/-- The table reads every encoded word as its instruction's mnemonic (R74, R77). -/
theorem lookupMnemonic_encode (i : Instr) : lookupMnemonic (encode i) = some i.mnemonic := by
  cases i with
  | lb rd rs1 imm => exact Laws.EncodeAccepted.lb rd rs1 imm
  | lh rd rs1 imm => exact Laws.EncodeAccepted.lh rd rs1 imm
  | lw rd rs1 imm => exact Laws.EncodeAccepted.lw rd rs1 imm
  | lbu rd rs1 imm => exact Laws.EncodeAccepted.lbu rd rs1 imm
  | lhu rd rs1 imm => exact Laws.EncodeAccepted.lhu rd rs1 imm
  | sb rs2 rs1 imm => exact Laws.EncodeAccepted.sb rs2 rs1 imm
  | sh rs2 rs1 imm => exact Laws.EncodeAccepted.sh rs2 rs1 imm
  | sw rs2 rs1 imm => exact Laws.EncodeAccepted.sw rs2 rs1 imm
  | addi rd rs1 imm => exact Laws.EncodeAccepted.addi rd rs1 imm
  | slti rd rs1 imm => exact Laws.EncodeAccepted.slti rd rs1 imm
  | sltiu rd rs1 imm => exact Laws.EncodeAccepted.sltiu rd rs1 imm
  | xori rd rs1 imm => exact Laws.EncodeAccepted.xori rd rs1 imm
  | ori rd rs1 imm => exact Laws.EncodeAccepted.ori rd rs1 imm
  | andi rd rs1 imm => exact Laws.EncodeAccepted.andi rd rs1 imm
  | slli rd rs1 shamt => exact Laws.EncodeAccepted.slli rd rs1 shamt
  | srli rd rs1 shamt => exact Laws.EncodeAccepted.srli rd rs1 shamt
  | srai rd rs1 shamt => exact Laws.EncodeAccepted.srai rd rs1 shamt
  | add rd rs1 rs2 => exact Laws.EncodeAccepted.add rd rs1 rs2
  | sub rd rs1 rs2 => exact Laws.EncodeAccepted.sub rd rs1 rs2
  | sll rd rs1 rs2 => exact Laws.EncodeAccepted.sll rd rs1 rs2
  | slt rd rs1 rs2 => exact Laws.EncodeAccepted.slt rd rs1 rs2
  | sltu rd rs1 rs2 => exact Laws.EncodeAccepted.sltu rd rs1 rs2
  | xor rd rs1 rs2 => exact Laws.EncodeAccepted.xor rd rs1 rs2
  | srl rd rs1 rs2 => exact Laws.EncodeAccepted.srl rd rs1 rs2
  | sra rd rs1 rs2 => exact Laws.EncodeAccepted.sra rd rs1 rs2
  | or rd rs1 rs2 => exact Laws.EncodeAccepted.or rd rs1 rs2
  | and rd rs1 rs2 => exact Laws.EncodeAccepted.and rd rs1 rs2
  | beq rs1 rs2 o => exact Laws.EncodeAccepted.beq rs1 rs2 o
  | bne rs1 rs2 o => exact Laws.EncodeAccepted.bne rs1 rs2 o
  | blt rs1 rs2 o => exact Laws.EncodeAccepted.blt rs1 rs2 o
  | bge rs1 rs2 o => exact Laws.EncodeAccepted.bge rs1 rs2 o
  | bltu rs1 rs2 o => exact Laws.EncodeAccepted.bltu rs1 rs2 o
  | bgeu rs1 rs2 o => exact Laws.EncodeAccepted.bgeu rs1 rs2 o
  | jal rd o => exact Laws.EncodeAccepted.jal rd o
  | jalr rd rs1 imm => exact Laws.EncodeAccepted.jalr rd rs1 imm
  | lui rd imm20 => exact Laws.EncodeAccepted.lui rd imm20
  | auipc rd imm20 => exact Laws.EncodeAccepted.auipc rd imm20
  | ecall rd rs1 imm => exact Laws.EncodeAccepted.ecall rd rs1 imm

/-- The row of an instruction's mnemonic accepts its word. -/
theorem encode_accepted (i : Instr) :
    ∃ r ∈ instructionTable, r.mnemonic = i.mnemonic ∧ r.accepts (encode i) = true := by
  obtain ⟨r, hfind, hmn⟩ := Option.map_eq_some_iff.1 (lookupMnemonic_encode i)
  exact ⟨r, List.mem_of_find?_eq_some hfind, hmn, by simpa using List.find?_some hfind⟩

/-- Settles O4: the row's fields because the row accepts the word, the operands layout by layout. -/
theorem layoutsPlaceEveryField : Obligations.LayoutsPlaceEveryField := by
  refine ⟨fun i => ?row, fun rd rs1 imm i hi => ?typeI, fun rd rs1 shamt i hi => ?shift,
    fun rd rs1 rs2 i hi => ?typeR, fun rs2 rs1 imm i hi => ?typeS, fun rs1 rs2 o i hi => ?typeSB,
    fun rd imm20 i hi => ?typeU, fun rd o => encodeUJ_places o rd _⟩
  case row =>
    obtain ⟨r, hr, hmn, haccepts⟩ := encode_accepted i
    exact ⟨r, hr, hmn, accepts_iff.1 haccepts⟩
  case typeI => fin_cases hi <;> exact ⟨immIField_encodeI .., rs1Of_encodeI .., rdOf_encodeI ..⟩
  case shift => fin_cases hi <;> exact ⟨shamtOf_encodeR .., rs1Of_encodeR .., rdOf_encodeR ..⟩
  case typeR => fin_cases hi <;> exact ⟨rs2Of_encodeR .., rs1Of_encodeR .., rdOf_encodeR ..⟩
  case typeS => fin_cases hi <;> exact encodeS_places imm rs2 rs1 _ _
  case typeSB => fin_cases hi <;> exact encodeSB_places o rs2 rs1 _ _
  case typeU => fin_cases hi <;> exact ⟨immUField_encodeU .., rdOf_encodeU ..⟩

end Sys2Proof
end

section
/-! PROOFS. The branch condition unit (40_datapath_units.md R120, R121): each output as the relation
of the two inputs that it computes. -/

namespace Sys2Proof.Machine

@[simp] theorem relations_equal_iff (a b : Word) : (relations a b).equal = true ↔ a = b :=
  beq_iff_eq

@[simp] theorem relations_lessThanSigned_iff (a b : Word) :
    (relations a b).lessThanSigned = true ↔ a.toInt < b.toInt :=
  decide_eq_true_iff

@[simp] theorem relations_lessThanUnsigned_iff (a b : Word) :
    (relations a b).lessThanUnsigned = true ↔ a.toNat < b.toNat :=
  decide_eq_true_iff

/-- Settles O27: each relation decides its comparison, and the taken table is `branchTaken` row by row. -/
theorem branchConditionUnitOutputs : Obligations.BranchConditionUnitOutputs := by
  constructor
  · intro a b
    exact ⟨relations_equal_iff a b, relations_lessThanSigned_iff a b, relations_lessThanUnsigned_iff a b⟩
  · intro r
    exact ⟨rfl, rfl, rfl, rfl, rfl, rfl⟩

end Sys2Proof.Machine
end

section
/-! PROOFS. What every register writer with a sequential `pc` shares: the row of its word, and its
completion through `writeBack`. -/

namespace Sys2Proof.Machine

/-- A word whose fields give the operands back under a mnemonic stands under that mnemonic's row and
decodes to the instruction (30_encoding.md R74, R75). -/
theorem encodedBy_of_row (m : Mnemonic) {mask matched : Word} {i : Instr}
    (hrow : ∃ r ∈ instructionTable, r.mnemonic = m ∧ r.maskWord = mask ∧ r.matchWord = matched)
    (hops : operandsOf m (encode i) = i) : EncodedBy mask matched i := by
  obtain ⟨r, hr, rfl, rfl, rfl⟩ := hrow
  obtain ⟨r', hr', hmn, haccepts⟩ := encode_accepted i
  have hrr' : r = r' := by
    refine row_unique_of_mnemonic hr hr' ?_
    rw [hmn, ← hops, operandsOf_mnemonic]
  rw [← hrr'] at haccepts
  exact ⟨(accepts_iff_masked hr _).1 haccepts, by rw [decode_of_accepts hr haccepts, hops]⟩

/-- An instruction whose meaning is `writeBack` completes at `pc + 4` with `rd` alone written. -/
theorem completes_of_writeBack {i : Instr} {s : State} {rd : Reg} {v : Word} {P : Word → Prop}
    {mask matched : Word} (hexec : exec i s = writeBack rd v s) (hv : P v)
    (henc : EncodedBy mask matched i) :
    ∃ t w, exec i s = .next t ∧ t.pc = s.pc + 4#32 ∧ WritesOnly rd w s t ∧ P w ∧
      EncodedBy mask matched i :=
  ⟨_, v, hexec, rfl, writesOnly_setReg s rd v _, hv, henc⟩

end Sys2Proof.Machine
end

section
/-! PROOFS. The ALU's functions in numbers and bits (40_datapath_units.md R104). -/

namespace Sys2Proof.Machine

variable (x y : Word)

theorem toNat_alu_add : (alu .add x y).toNat = (x.toNat + y.toNat) % 2 ^ 32 :=
  BitVec.toNat_add x y

theorem alu_slt : alu .slt x y = if x.toInt < y.toInt then 1#32 else 0#32 := by
  simp [alu, truth]

theorem alu_sltu : alu .sltu x y = if x.toNat < y.toNat then 1#32 else 0#32 := by
  simp [alu, truth]

theorem getLsbD_alu_xor (j : Nat) :
    (alu .xor x y).getLsbD j = (x.getLsbD j ^^ y.getLsbD j) :=
  BitVec.getLsbD_xor

theorem getLsbD_alu_or (j : Nat) :
    (alu .or x y).getLsbD j = (x.getLsbD j || y.getLsbD j) :=
  BitVec.getLsbD_or

theorem getLsbD_alu_and (j : Nat) :
    (alu .and x y).getLsbD j = (x.getLsbD j && y.getLsbD j) :=
  BitVec.getLsbD_and

theorem toNat_alu_sll : (alu .sll x y).toNat = x.toNat * 2 ^ shiftAmount y % 2 ^ 32 := by
  rw [alu, BitVec.toNat_shiftLeft, Nat.shiftLeft_eq]

theorem toNat_alu_srl : (alu .srl x y).toNat = x.toNat / 2 ^ shiftAmount y := by
  rw [alu, BitVec.toNat_ushiftRight, Nat.shiftRight_eq_div_pow]

theorem toInt_alu_sra : (alu .sra x y).toInt = x.toInt / 2 ^ shiftAmount y := by
  rw [alu, BitVec.toInt_sshiftRight, Int.shiftRight_eq_div_pow]
  norm_cast

end Sys2Proof.Machine
end

section
/-! PROOFS. Immediate arithmetic and logic (43_op_imm.md R181 to R189): each instruction is `writeBack`
of one ALU function of `x[rs1]` and the extended immediate. -/

namespace Sys2Proof.Machine

/-! ### The ALU with the extended immediate as its second operand -/

theorem toNat_alu_add_sext (x : Word) (imm : BitVec 12) :
    ((alu .add x (sext imm)).toNat : Int) = (x.toNat + imm.toInt) % 2 ^ 32 := by
  have himm := toNat_sext (by decide) imm
  rw [toNat_alu_add]
  omega

theorem alu_slt_sext (x : Word) (imm : BitVec 12) :
    alu .slt x (sext imm) = if x.toInt < imm.toInt then 1#32 else 0#32 := by
  rw [alu_slt, toInt_sext (by decide)]

theorem alu_sltu_sext (x : Word) (imm : BitVec 12) :
    alu .sltu x (sext imm) = if (x.toNat : Int) < imm.toInt % 2 ^ 32 then 1#32 else 0#32 := by
  simp only [alu_sltu, ← toNat_sext (by decide : 12 ≤ 32), Nat.cast_lt]

theorem getLsbD_alu_xor_sext (x : Word) (imm : BitVec 12) {j : Nat} (hj : j < 32) :
    (alu .xor x (sext imm)).getLsbD j =
      (x.getLsbD j ^^ imm.getLsbD (if j < 11 then j else 11)) := by
  rw [getLsbD_alu_xor, getLsbD_sext12 imm j hj]

theorem getLsbD_alu_or_sext (x : Word) (imm : BitVec 12) {j : Nat} (hj : j < 32) :
    (alu .or x (sext imm)).getLsbD j =
      (x.getLsbD j || imm.getLsbD (if j < 11 then j else 11)) := by
  rw [getLsbD_alu_or, getLsbD_sext12 imm j hj]

theorem getLsbD_alu_and_sext (x : Word) (imm : BitVec 12) {j : Nat} (hj : j < 32) :
    (alu .and x (sext imm)).getLsbD j =
      (x.getLsbD j && imm.getLsbD (if j < 11 then j else 11)) := by
  rw [getLsbD_alu_and, getLsbD_sext12 imm j hj]

theorem toNat_alu_sll_zext (x : Word) (shamt : BitVec 5) :
    (alu .sll x (zext shamt)).toNat = x.toNat * 2 ^ shamt.toNat % 2 ^ 32 := by
  rw [toNat_alu_sll, shiftAmount_zext]

theorem toNat_alu_srl_zext (x : Word) (shamt : BitVec 5) :
    (alu .srl x (zext shamt)).toNat = x.toNat / 2 ^ shamt.toNat := by
  rw [toNat_alu_srl, shiftAmount_zext]

theorem toInt_alu_sra_zext (x : Word) (shamt : BitVec 5) :
    (alu .sra x (zext shamt)).toInt = x.toInt / 2 ^ shamt.toNat := by
  rw [toInt_alu_sra, shiftAmount_zext]

/-! ### The three statements -/

/-- Settles O17: the sum and the two comparisons, in numbers. -/
theorem addiSltiSltiuResults : Obligations.AddiSltiSltiuResults := fun s rd rs1 imm =>
  ⟨completes_of_writeBack rfl (toNat_alu_add_sext (s.reg rs1) imm)
      (encodedBy_of_row .addi (by decide) (by simp [operandsOf, encode])),
    completes_of_writeBack rfl (alu_slt_sext (s.reg rs1) imm)
      (encodedBy_of_row .slti (by decide) (by simp [operandsOf, encode])),
    completes_of_writeBack rfl (alu_sltu_sext (s.reg rs1) imm)
      (encodedBy_of_row .sltiu (by decide) (by simp [operandsOf, encode]))⟩

/-- Settles O18: each function bit by bit, the sign bit of the field standing for the bits above it. -/
theorem xoriOriAndiResults : Obligations.XoriOriAndiResults := fun s rd rs1 imm =>
  ⟨completes_of_writeBack rfl (fun _ => getLsbD_alu_xor_sext (s.reg rs1) imm)
      (encodedBy_of_row .xori (by decide) (by simp [operandsOf, encode])),
    completes_of_writeBack rfl (fun _ => getLsbD_alu_or_sext (s.reg rs1) imm)
      (encodedBy_of_row .ori (by decide) (by simp [operandsOf, encode])),
    completes_of_writeBack rfl (fun _ => getLsbD_alu_and_sext (s.reg rs1) imm)
      (encodedBy_of_row .andi (by decide) (by simp [operandsOf, encode]))⟩

/-- Settles O19: the three shifts, by the amount that the operand carries. -/
theorem slliSrliSraiResults : Obligations.SlliSrliSraiResults := fun s rd rs1 shamt =>
  ⟨completes_of_writeBack rfl (toNat_alu_sll_zext (s.reg rs1) shamt)
      (encodedBy_of_row .slli (by decide) (by simp [operandsOf, encode])),
    completes_of_writeBack rfl (toNat_alu_srl_zext (s.reg rs1) shamt)
      (encodedBy_of_row .srli (by decide) (by simp [operandsOf, encode])),
    completes_of_writeBack rfl (toInt_alu_sra_zext (s.reg rs1) shamt)
      (encodedBy_of_row .srai (by decide) (by simp [operandsOf, encode]))⟩

end Sys2Proof.Machine
end

section
/-! PROOFS. Register arithmetic and logic (44_op_reg.md R201 to R210): each instruction is `writeBack`
of one ALU function of `x[rs1]` and `x[rs2]`. -/

namespace Sys2Proof.Machine

/-- The ALU's difference (40_datapath_units.md R104), modulo 2^32. -/
theorem toNat_alu_sub (x y : Word) :
    ((alu .sub x y).toNat : Int) = ((x.toNat : Int) - y.toNat) % 2 ^ 32 := by
  rw [alu, BitVec.toNat_sub]
  omega

/-! ### The four statements -/

/-- Settles O20: the sum and the difference, in numbers. -/
theorem addSubResults : Obligations.AddSubResults := fun s rd rs1 rs2 =>
  ⟨completes_of_writeBack rfl (toNat_alu_add (s.reg rs1) (s.reg rs2))
      (encodedBy_of_row .add (by decide) (by simp [operandsOf, encode])),
    completes_of_writeBack rfl (toNat_alu_sub (s.reg rs1) (s.reg rs2))
      (encodedBy_of_row .sub (by decide) (by simp [operandsOf, encode]))⟩

/-- Settles O21: the signed and the unsigned comparison. -/
theorem sltSltuResults : Obligations.SltSltuResults := fun s rd rs1 rs2 =>
  ⟨completes_of_writeBack rfl (alu_slt (s.reg rs1) (s.reg rs2))
      (encodedBy_of_row .slt (by decide) (by simp [operandsOf, encode])),
    completes_of_writeBack rfl (alu_sltu (s.reg rs1) (s.reg rs2))
      (encodedBy_of_row .sltu (by decide) (by simp [operandsOf, encode]))⟩

/-- Settles O22: each function bit by bit. -/
theorem xorOrAndResults : Obligations.XorOrAndResults := fun s rd rs1 rs2 =>
  ⟨completes_of_writeBack rfl (fun j _ => getLsbD_alu_xor (s.reg rs1) (s.reg rs2) j)
      (encodedBy_of_row .xor (by decide) (by simp [operandsOf, encode])),
    completes_of_writeBack rfl (fun j _ => getLsbD_alu_or (s.reg rs1) (s.reg rs2) j)
      (encodedBy_of_row .or (by decide) (by simp [operandsOf, encode])),
    completes_of_writeBack rfl (fun j _ => getLsbD_alu_and (s.reg rs1) (s.reg rs2) j)
      (encodedBy_of_row .and (by decide) (by simp [operandsOf, encode]))⟩

/-- Settles O23: the three shifts, the ALU's amount being the low five bits of `x[rs2]`. -/
theorem sllSrlSraResults : Obligations.SllSrlSraResults := by
  intro s rd rs1 rs2
  simp only [← shiftAmount_mod]
  exact ⟨completes_of_writeBack rfl (toNat_alu_sll (s.reg rs1) (s.reg rs2))
      (encodedBy_of_row .sll (by decide) (by simp [operandsOf, encode])),
    completes_of_writeBack rfl (toNat_alu_srl (s.reg rs1) (s.reg rs2))
      (encodedBy_of_row .srl (by decide) (by simp [operandsOf, encode])),
    completes_of_writeBack rfl (toInt_alu_sra (s.reg rs1) (s.reg rs2))
      (encodedBy_of_row .sra (by decide) (by simp [operandsOf, encode]))⟩

end Sys2Proof.Machine
end

section
/-! PROOFS. Conditional branches (45_branches.md R221 to R226): each instruction is `branch` on one
output of the branch condition unit or on its negation. -/

namespace Sys2Proof.Machine

/-- A branch moves `pc` alone, to its target when the condition holds and to `pc + 4` when not (R220). -/
theorem branch_eq (taken : Relations → Bool) (rs1 rs2 : Reg) (o : BitVec 13) (s : State) :
    branch taken rs1 rs2 o s =
      .next (s.setPc (if taken (relations (s.reg rs1) (s.reg rs2)) then branchTarget s o
        else nextPc s)) := by
  rw [branch]
  split <;> rfl

section
variable {i : Instr} {s : State} {taken : Relations → Bool} {rs1 rs2 : Reg} {o : BitVec 13}
  {P : Prop} [Decidable P]

/-- An instruction that branches exactly when `P` holds. -/
theorem branches_if (hexec : exec i s = branch taken rs1 rs2 o s)
    (hP : taken (relations (s.reg rs1) (s.reg rs2)) = true ↔ P) :
    ∃ t, exec i s = .next t ∧ OnlyPcMoves s t ∧
      t.pc = if P then BitVec.ofInt 32 (s.pc.toNat + o.toInt) else s.pc + 4#32 := by
  refine ⟨_, hexec.trans (branch_eq taken rs1 rs2 o s), onlyPcMoves_setPc s _, ?_⟩
  simp only [State.setPc_pc, hP, branchTarget, add_sext (by decide : 13 ≤ 32), nextPc]

/-- An instruction that branches on the negation of an output that says `P`. -/
theorem branches_unless {output : Relations → Bool}
    (hexec : exec i s = branch (fun r => !output r) rs1 rs2 o s)
    (hP : output (relations (s.reg rs1) (s.reg rs2)) = true ↔ P) :
    ∃ t, exec i s = .next t ∧ OnlyPcMoves s t ∧
      t.pc = if P then s.pc + 4#32 else BitVec.ofInt 32 (s.pc.toNat + o.toInt) := by
  have hnot : (!output (relations (s.reg rs1) (s.reg rs2))) = true ↔ ¬ P := by
    rw [← hP, Bool.not_eq_true', Bool.not_eq_true]
  simpa only [ite_not] using branches_if hexec hnot

end

/-! ### The three statements -/

/-- Settles O24: the condition is the unit's `equal`, negated for BNE; an even offset survives the
SB layout, which leaves bit 0 out. -/
theorem beqBneResults : Obligations.BeqBneResults := fun s rs1 rs2 o =>
  ⟨branches_if rfl (relations_equal_iff ..),
    branches_unless rfl (relations_equal_iff ..),
    fun heven =>
      ⟨encodedBy_of_row .beq (by decide)
          (by simp [operandsOf, encode, immSBField_encodeSB (h := heven)]),
        encodedBy_of_row .bne (by decide)
          (by simp [operandsOf, encode, immSBField_encodeSB (h := heven)])⟩⟩

/-- Settles O25: the condition is the unit's `lessThanSigned`, negated for BGE. -/
theorem bltBgeResults : Obligations.BltBgeResults := fun s rs1 rs2 o =>
  ⟨branches_if rfl (relations_lessThanSigned_iff ..),
    branches_unless rfl (relations_lessThanSigned_iff ..),
    fun heven =>
      ⟨encodedBy_of_row .blt (by decide)
          (by simp [operandsOf, encode, immSBField_encodeSB (h := heven)]),
        encodedBy_of_row .bge (by decide)
          (by simp [operandsOf, encode, immSBField_encodeSB (h := heven)])⟩⟩

/-- Settles O26: the condition is the unit's `lessThanUnsigned`, negated for BGEU. -/
theorem bltuBgeuResults : Obligations.BltuBgeuResults := fun s rs1 rs2 o =>
  ⟨branches_if rfl (relations_lessThanUnsigned_iff ..),
    branches_unless rfl (relations_lessThanUnsigned_iff ..),
    fun heven =>
      ⟨encodedBy_of_row .bltu (by decide)
          (by simp [operandsOf, encode, immSBField_encodeSB (h := heven)]),
        encodedBy_of_row .bgeu (by decide)
          (by simp [operandsOf, encode, immSBField_encodeSB (h := heven)])⟩⟩

end Sys2Proof.Machine
end

section
/-! PROOFS. Upper immediates (47_upper_imm.md R250 to R252): each instruction is `writeBack` of the
field times 2^12, alone or added to the instruction's own address. -/

namespace Sys2Proof.Machine

/-- AUIPC's sum (R252), which wraps. -/
theorem toNat_add_upperImm (pc : Word) (imm20 : BitVec 20) :
    (pc + upperImm imm20).toNat = (pc.toNat + imm20.toNat * 2 ^ 12) % 2 ^ 32 := by
  rw [BitVec.toNat_add, toNat_upperImm]

/-- Settles O30: LUI writes the shifted field, AUIPC its sum with `pc`. -/
theorem luiAuipcResults : Obligations.LuiAuipcResults := fun s rd imm20 =>
  ⟨completes_of_writeBack rfl (toNat_upperImm imm20)
      (encodedBy_of_row .lui (by decide) (by simp [operandsOf, encode])),
    completes_of_writeBack rfl (toNat_add_upperImm s.pc imm20)
      (encodedBy_of_row .auipc (by decide) (by simp [operandsOf, encode]))⟩

end Sys2Proof.Machine
end

section
/-! PROOFS. Words and instructions (30_encoding.md): the encoder and the decoder are inverse to each
other, the rows of the table exclude each other, and the words that no row accepts. -/

namespace Sys2Proof

open Machine

/-! ### Decode of encode (R63, R75, R77) -/

/-- The fields of an encoded word are the instruction's operands; an even offset survives its layout,
which leaves bit 0 out. -/
theorem operandsOf_encode {i : Instr} (hwf : i.wf = true) : operandsOf i.mnemonic (encode i) = i := by
  cases i
  case beq | bne | blt | bge | bltu | bgeu =>
    simp [Instr.mnemonic, operandsOf, encode, immSBField_encodeSB (h := branchOffset_even hwf)]
  case jal =>
    simp [Instr.mnemonic, operandsOf, encode, immUJField_encodeUJ (h := jumpOffset_even hwf)]
  all_goals simp [Instr.mnemonic, operandsOf, encode]

/-- Settles O2: the row of the instruction's mnemonic accepts its word, and the operands are read back. -/
theorem decodeOfEncodeIsTheInstruction : Obligations.DecodeOfEncodeIsTheInstruction := by
  intro i hwf
  obtain ⟨r, hr, hmn, haccepts⟩ := encode_accepted i
  rw [decode_of_accepts hr haccepts, hmn, operandsOf_encode hwf]

/-! ### Encode of decode (R63, R80) -/

section
variable {w : Word} {op : BitVec 7} {f3 : BitVec 3} {f7 : BitVec 7}

theorem encodeR_of_fields (hop : opcodeOf w = op) (h3 : funct3Of w = f3) (h7 : funct7Of w = f7) :
    encodeR f7 (rs2Of w) (rs1Of w) f3 (rdOf w) op = w := by
  rw [← hop, ← h3, ← h7, encodeR_fields]

theorem encodeI_of_fields (hop : opcodeOf w = op) (h3 : funct3Of w = f3) :
    encodeI (immIField w) (rs1Of w) f3 (rdOf w) op = w := by
  rw [← hop, ← h3, encodeI_fields]

theorem encodeS_of_fields (hop : opcodeOf w = op) (h3 : funct3Of w = f3) :
    encodeS (immSField w) (rs2Of w) (rs1Of w) f3 op = w := by
  rw [← hop, ← h3, encodeS_fields]

theorem encodeSB_of_fields (hop : opcodeOf w = op) (h3 : funct3Of w = f3) :
    encodeSB (immSBField w) (rs2Of w) (rs1Of w) f3 op = w := by
  rw [← hop, ← h3, encodeSB_fields]

theorem encodeU_of_fields (hop : opcodeOf w = op) : encodeU (immUField w) (rdOf w) op = w := by
  rw [← hop, encodeU_fields]

theorem encodeUJ_of_fields (hop : opcodeOf w = op) : encodeUJ (immUJField w) (rdOf w) op = w := by
  rw [← hop, encodeUJ_fields]

end

/-- A word that a row accepts is put together again from the operands read for the row's mnemonic: the
row's discriminators are the word's own fields. -/
theorem encode_operandsOf {r : TableRow} {w : Word} (hr : r ∈ instructionTable)
    (haccepts : r.accepts w = true) : encode (operandsOf r.mnemonic w) = w := by
  obtain ⟨hop, h3, h7⟩ := accepts_iff.1 haccepts
  simp only [instructionTable, List.mem_append] at hr
  obtain ((((hload | hstore) | hopImm) | hopReg) | hbranch) | hother := hr
  · fin_cases hload <;> exact encodeI_of_fields hop (h3 _ rfl)
  · fin_cases hstore <;> exact encodeS_of_fields hop (h3 _ rfl)
  · -- six rows of the I-type layout, then the three shifts, whose amount stands in the place of `rs2`
    fin_cases hopImm
    iterate 6 exact encodeI_of_fields hop (h3 _ rfl)
    all_goals exact encodeR_of_fields hop (h3 _ rfl) (h7 _ rfl)
  · fin_cases hopReg <;> exact encodeR_of_fields hop (h3 _ rfl) (h7 _ rfl)
  · fin_cases hbranch <;> exact encodeSB_of_fields hop (h3 _ rfl)
  · fin_cases hother
    · exact encodeUJ_of_fields hop
    · exact encodeI_of_fields hop (h3 _ rfl)
    · exact encodeU_of_fields hop
    · exact encodeU_of_fields hop
    · exact encodeI_of_fields hop (h3 _ rfl)

/-- The operands of every word are within their ranges: both offset generators leave bit 0 at 0. -/
theorem operandsOf_wf (m : Mnemonic) (w : Word) : (operandsOf m w).wf = true := by
  cases m
  case beq | bne | blt | bge | bltu | bgeu =>
    simpa only [operandsOf, Instr.wf, branchOffsetOk, Bool.not_eq_true'] using immSBField_even w
  case jal =>
    simpa only [operandsOf, Instr.wf, jumpOffsetOk, Bool.not_eq_true'] using immUJField_even w
  all_goals rfl

/-- Settles O3: a word that decodes is accepted by a row, whose operands encode it. -/
theorem encodeOfDecodeIsTheWord : Obligations.EncodeOfDecodeIsTheWord := by
  intro w i hdecode
  obtain ⟨r, hr, haccepts, rfl⟩ := decode_row hdecode
  exact ⟨operandsOf_wf _ w, encode_operandsOf hr haccepts⟩

end Sys2Proof
end

section
/-! PROOFS. The table and the record (30_encoding.md R60 to R80). -/

namespace Sys2Proof

open Machine

/-- Settles O6: two different rows differ in a bit that both look at. -/
theorem atMostOneRowMatchesAWord : Obligations.AtMostOneRowMatchesAWord :=
  fun _ _ _ hr hr' h h' => row_unique_of_masked hr hr' h h'

/-! ### The narrowing algorithm (R72, R73) -/

/-- The discriminator that one narrowing step keeps is the one a surviving candidate requires, where all
candidates require it or none does (R73). -/
theorem narrow_value {β : Type} [DecidableEq β] {sel : TableRow → Option β} {v : β}
    {l : List TableRow} {r : TableRow} (hr : r ∈ l) (hmatch : (sel r).all (v == ·) = true)
    (hu : ∀ r ∈ l, ∀ r' ∈ l, (sel r).isSome = (sel r').isSome) :
    (if l.any (fun r => (sel r).isSome) then
      (if (l.filter (fun r => sel r == some v)).isEmpty then none else some v) else none) = sel r := by
  cases hs : sel r with
  | none =>
    have hany : l.any (fun r => (sel r).isSome) = false :=
      List.any_eq_false.2 fun r' hr' => by simp [← hu r hr r' hr', hs]
    simp [hany]
  | some x =>
    obtain rfl : v = x := by simpa [hs] using hmatch
    have hany : l.any (fun r => (sel r).isSome) = true := List.any_eq_true.2 ⟨r, hr, by simp [hs]⟩
    rw [if_pos hany, if_neg (by simpa using ⟨r, hr, hs⟩)]

section
variable {w : Word} {n : Narrowed}

theorem narrowFunct3_candidates
    (hu : ∀ r ∈ n.candidates, ∀ r' ∈ n.candidates, r.funct3.isSome = r'.funct3.isSome) :
    (narrowFunct3 w n).candidates = n.candidates.filter (fun r => r.funct3.all (funct3Of w == ·)) := by
  rw [← narrow_list _ _ _ hu, narrowFunct3]
  split <;> rfl

theorem narrowFunct7_candidates
    (hu : ∀ r ∈ n.candidates, ∀ r' ∈ n.candidates, r.funct7.isSome = r'.funct7.isSome) :
    (narrowFunct7 w n).candidates = n.candidates.filter (fun r => r.funct7.all (funct7Of w == ·)) := by
  rw [← narrow_list _ _ _ hu, narrowFunct7]
  split <;> rfl

theorem narrowFunct3_funct3 {r : TableRow} (hr : r ∈ n.candidates) (hnone : n.funct3 = none)
    (hmatch : r.funct3.all (funct3Of w == ·) = true)
    (hu : ∀ r ∈ n.candidates, ∀ r' ∈ n.candidates, r.funct3.isSome = r'.funct3.isSome) :
    (narrowFunct3 w n).funct3 = r.funct3 := by
  rw [← narrow_value hr hmatch hu, narrowFunct3]
  split
  · rfl
  · exact hnone

theorem narrowFunct7_funct7 {r : TableRow} (hr : r ∈ n.candidates) (hnone : n.funct7 = none)
    (hmatch : r.funct7.all (funct7Of w == ·) = true)
    (hu : ∀ r ∈ n.candidates, ∀ r' ∈ n.candidates, r.funct7.isSome = r'.funct7.isSome) :
    (narrowFunct7 w n).funct7 = r.funct7 := by
  rw [← narrow_value hr hmatch hu, narrowFunct7]
  split
  · rfl
  · exact hnone

@[simp] theorem narrowFunct3_funct7 : (narrowFunct3 w n).funct7 = n.funct7 := by
  rw [narrowFunct3]
  split <;> rfl

@[simp] theorem narrowFunct7_funct3 : (narrowFunct7 w n).funct3 = n.funct3 := by
  rw [narrowFunct7]
  split <;> rfl

end

/-- What the opcode leaves to the two narrowing steps (R72 step 1). -/
def opcodeCandidates (w : Word) : Narrowed :=
  ⟨instructionTable.filter (·.opcode == opcodeOf w), none, none⟩

theorem narrow_eq (w : Word) : narrow w = narrowFunct7 w (narrowFunct3 w (opcodeCandidates w)) := rfl

theorem mem_opcodeCandidates {w : Word} {r : TableRow} :
    r ∈ (opcodeCandidates w).candidates ↔ r ∈ instructionTable ∧ r.opcode = opcodeOf w := by
  simp [opcodeCandidates]

/-- Rows of one opcode all require `funct3`, or none does (R73). -/
theorem table_funct3_uniform : ∀ r ∈ instructionTable, ∀ r' ∈ instructionTable, r.opcode = r'.opcode →
    r.funct3.isSome = r'.funct3.isSome := by
  decide

/-- Rows of one opcode and `funct3` all require `funct7`, or none does (R73). -/
theorem table_funct7_uniform : ∀ r ∈ instructionTable, ∀ r' ∈ instructionTable, r.opcode = r'.opcode →
    r.funct3 = r'.funct3 → r.funct7.isSome = r'.funct7.isSome := by
  decide

theorem opcodeCandidates_uniform (w : Word) : ∀ r ∈ (opcodeCandidates w).candidates,
    ∀ r' ∈ (opcodeCandidates w).candidates, r.funct3.isSome = r'.funct3.isSome := by
  intro r hr r' hr'
  obtain ⟨hr, hop⟩ := mem_opcodeCandidates.1 hr
  obtain ⟨hr', hop'⟩ := mem_opcodeCandidates.1 hr'
  exact table_funct3_uniform r hr r' hr' (hop.trans hop'.symm)

theorem mem_narrowFunct3_candidates {w : Word} {r : TableRow} :
    r ∈ (narrowFunct3 w (opcodeCandidates w)).candidates ↔
      r ∈ instructionTable ∧ r.opcode = opcodeOf w ∧ r.funct3.all (funct3Of w == ·) = true := by
  rw [narrowFunct3_candidates (opcodeCandidates_uniform w), List.mem_filter, mem_opcodeCandidates,
    and_assoc]

theorem funct3_eq_of_all {w : Word} {o : Option (BitVec 3)} (h : o.all (funct3Of w == ·) = true)
    (hsome : o.isSome = true) : o = some (funct3Of w) := by
  obtain ⟨f, rfl⟩ := Option.isSome_iff_exists.1 hsome
  rw [beq_iff_eq.1 h]

theorem narrowFunct3_uniform (w : Word) :
    ∀ r ∈ (narrowFunct3 w (opcodeCandidates w)).candidates,
    ∀ r' ∈ (narrowFunct3 w (opcodeCandidates w)).candidates, r.funct7.isSome = r'.funct7.isSome := by
  intro r hr r' hr'
  obtain ⟨hr, hop, h3⟩ := mem_narrowFunct3_candidates.1 hr
  obtain ⟨hr', hop', h3'⟩ := mem_narrowFunct3_candidates.1 hr'
  have hopcode : r.opcode = r'.opcode := hop.trans hop'.symm
  have hsome := table_funct3_uniform r hr r' hr' hopcode
  refine table_funct7_uniform r hr r' hr' hopcode ?_
  cases h : r.funct3 with
  | none => simp_all
  | some f => rw [← h, funct3_eq_of_all h3 (by simp [h]), funct3_eq_of_all h3' (by simp [← hsome, h])]

/-- The candidates that the narrowing steps leave are the rows that accept the word. -/
theorem narrow_candidates (w : Word) :
    (narrow w).candidates = instructionTable.filter (·.accepts w) := by
  rw [narrow_eq, narrowFunct7_candidates (narrowFunct3_uniform w),
    narrowFunct3_candidates (opcodeCandidates_uniform w), opcodeCandidates, List.filter_filter,
    List.filter_filter]
  refine List.filter_congr fun r _ => ?_
  rw [TableRow.accepts, Bool.beq_comm (a := opcodeOf w), Bool.and_comm, Bool.and_comm (r.funct7.all _),
    Bool.and_assoc]

/-- The first row that accepts a word is the only one. -/
theorem find?_accepts {r : TableRow} {w : Word} (hr : r ∈ instructionTable)
    (haccepts : r.accepts w = true) : instructionTable.find? (·.accepts w) = some r := by
  cases hfind : instructionTable.find? (·.accepts w) with
  | none => exact absurd haccepts (List.find?_eq_none.1 hfind r hr)
  | some r' =>
    have hr' : r'.accepts w = true := by simpa using List.find?_some hfind
    rw [row_unique_of_accepts hr (List.mem_of_find?_eq_some hfind) haccepts hr']

/-- The resolved candidate is the first row that accepts the word (R74). -/
theorem head?_narrow_candidates (w : Word) :
    (narrow w).candidates.head? = instructionTable.find? (·.accepts w) := by
  rw [narrow_candidates, List.head?_filter]

/-- Narrowing keeps the discriminators that the accepting row requires (R72 step 4). -/
theorem narrow_discriminators {r : TableRow} {w : Word} (hr : r ∈ instructionTable)
    (haccepts : r.accepts w = true) : (narrow w).funct3 = r.funct3 ∧ (narrow w).funct7 = r.funct7 := by
  have ⟨⟨hop, h3⟩, h7⟩ : (opcodeOf w == r.opcode ∧ r.funct3.all (funct3Of w == ·) = true) ∧
      r.funct7.all (funct7Of w == ·) = true := by
    simpa only [TableRow.accepts, Bool.and_eq_true] using haccepts
  have hop : r.opcode = opcodeOf w := (beq_iff_eq.1 hop).symm
  rw [narrow_eq]
  constructor
  · rw [narrowFunct7_funct3]
    exact narrowFunct3_funct3 (mem_opcodeCandidates.2 ⟨hr, hop⟩) rfl h3 (opcodeCandidates_uniform w)
  · exact narrowFunct7_funct7 (mem_narrowFunct3_candidates.2 ⟨hr, hop, h3⟩)
      (by rw [narrowFunct3_funct7, opcodeCandidates]) h7 (narrowFunct3_uniform w)

/-- The record of a word that a row accepts (R60, R64). -/
def TableRow.record (r : TableRow) (w pc : Word) : Record where
  raw := w
  pc := pc
  opcode := opcodeOf w
  funct3 := r.funct3
  funct7 := r.funct7
  rd := if r.mnemonic.encodingType.definesRd then some (rdOf w) else none
  rs1 := if r.mnemonic.encodingType.definesRs1 then some (rs1Of w) else none
  rs2 := if r.mnemonic.encodingType.definesRs2 then some (rs2Of w) else none
  immediate := r.mnemonic.encodingType.immediate w
  mnemonic := r.mnemonic
  encodingType := r.mnemonic.encodingType

theorem decodeRecord_of_accepts {r : TableRow} {w : Word} (hr : r ∈ instructionTable)
    (haccepts : r.accepts w = true) (pc : Word) : decodeRecord w pc = .ok (r.record w pc) := by
  obtain ⟨h3, h7⟩ := narrow_discriminators hr haccepts
  simp only [decodeRecord, head?_narrow_candidates, find?_accepts hr haccepts, h3, h7, TableRow.record]

/-- Decoder and record agree on which row reads a word, and on the words that no row reads. -/
theorem decode_cases (w : Word) :
    (∃ r ∈ instructionTable, r.accepts w = true ∧ decode w = .ok (operandsOf r.mnemonic w) ∧
      ∀ pc, decodeRecord w pc = .ok (r.record w pc)) ∨
    ((∀ r ∈ instructionTable, ¬ r.accepts w = true) ∧ decode w = .error .unresolved ∧
      ∀ pc, decodeRecord w pc = .error .unresolved) := by
  by_cases h : ∃ r ∈ instructionTable, r.accepts w = true
  · obtain ⟨r, hr, haccepts⟩ := h
    exact .inl ⟨r, hr, haccepts, decode_of_accepts hr haccepts, decodeRecord_of_accepts hr haccepts⟩
  · have hnone : ∀ r ∈ instructionTable, ¬ r.accepts w = true := fun r hr ha => h ⟨r, hr, ha⟩
    have hfind : instructionTable.find? (·.accepts w) = none := List.find?_eq_none.2 hnone
    refine .inr ⟨hnone, ?_, fun pc => ?_⟩
    · simp [decode, lookupMnemonic, hfind]
    · simp [decodeRecord, head?_narrow_candidates, hfind]

/-- Settles O7: the row that accepts a word is the one whose mask and match fit it. -/
theorem narrowingFindsTheMatchingRow : Obligations.NarrowingFindsTheMatchingRow := by
  intro w pc
  have hmasked : ∀ r ∈ instructionTable, (w &&& r.maskWord == r.matchWord) = r.accepts w := fun r hr => by
    rw [Bool.eq_iff_iff, beq_iff_eq, accepts_iff_masked hr]
  rw [List.find?_congr hmasked]
  obtain ⟨r, hr, haccepts, -, hrecord⟩ | ⟨hnone, -, hrecord⟩ := decode_cases w
  · rw [hrecord, find?_accepts hr haccepts]
    rfl
  · rw [hrecord, List.find?_eq_none.2 hnone]
    rfl


/-! ### The fields of the record (R60, R64, R65) -/

/-- A word's record is that of the row that accepts the word. -/
theorem decodeRecord_row {w pc : Word} {d : Record} (h : decodeRecord w pc = .ok d) :
    ∃ r ∈ instructionTable, r.accepts w = true ∧ d = r.record w pc := by
  obtain ⟨r, hr, haccepts, -, hrecord⟩ | ⟨-, -, hrecord⟩ := decode_cases w
  · rw [hrecord] at h
    cases h
    exact ⟨r, hr, haccepts, rfl⟩
  · rw [hrecord] at h
    cases h

/-- All types but U and UJ require `funct3`; R-type and the three shifts require `funct7`. -/
theorem table_discriminators_of_type : ∀ r ∈ instructionTable,
    (r.funct3.isSome = true ↔
      ¬ (r.mnemonic.encodingType = .u ∨ r.mnemonic.encodingType = .uj)) ∧
    (r.funct7.isSome = true ↔ r.mnemonic.encodingType = .r ∨ r.mnemonic = .slli ∨
      r.mnemonic = .srli ∨ r.mnemonic = .srai) := by
  decide

/-- A discriminator that holds of a word is unset or the word's own field. -/
theorem eq_ite_isSome {β : Type} {o : Option β} {v : β} (h : ∀ x, o = some x → v = x) :
    o = if o.isSome = true then some v else none := by
  cases o with
  | none => rfl
  | some x => rw [h x rfl]; rfl

section
variable (t : EncodingType)

theorem definesRd_iff : t.definesRd = true ↔ ¬ (t = .s ∨ t = .sb) := by
  cases t <;> decide

theorem definesRs1_iff : t.definesRs1 = true ↔ ¬ (t = .u ∨ t = .uj) := by
  cases t <;> decide

theorem definesRs2_iff : t.definesRs2 = true ↔ t = .r ∨ t = .s ∨ t = .sb := by
  cases t <;> decide

end

/-- Settles O8: the accepting row's record, whose discriminators are the word's own fields. -/
theorem recordHasExactlyTheTypesFields : Obligations.RecordHasExactlyTheTypesFields := by
  intro w pc d hd
  obtain ⟨r, hr, haccepts, rfl⟩ := decodeRecord_row hd
  obtain ⟨-, h3, h7⟩ := accepts_iff.1 haccepts
  obtain ⟨htype3, htype7⟩ := table_discriminators_of_type r hr
  have hfunct3 := eq_ite_isSome h3
  have hfunct7 := eq_ite_isSome h7
  simp only [htype3, ite_not] at hfunct3
  simp only [htype7] at hfunct7
  refine ⟨rfl, rfl, rfl, rfl, ?rd, ?rs1, ?rs2, hfunct3, hfunct7⟩
  case rd => simp only [TableRow.record, definesRd_iff, ite_not]
  case rs1 => simp only [TableRow.record, definesRs1_iff, ite_not]
  case rs2 => simp only [TableRow.record, definesRs2_iff]

/-! ### The U, branch and jump immediates (R68, R70, R71) -/

theorem getLsbD_immUField (w : Word) {j : Nat} (hj : j < 20) :
    (immUField w).getLsbD j = w.getLsbD (12 + j) := by
  simp [immUField, hj]

theorem getLsbD_immSBField (w : Word) {j : Nat} (hj : j < 13) :
    (immSBField w).getLsbD j = (decide (j ≠ 0) && w.getLsbD (if j < 5 then 8 + (j - 1)
      else if j < 11 then 25 + (j - 5) else if j = 11 then 7 else 31)) := by
  simp only [immSBField, BitVec.getLsbD_or, getLsbD_placeAt, BitVec.getLsbD_extractLsb']
  interval_cases j <;> simp

theorem getLsbD_immUJField (w : Word) {j : Nat} (hj : j < 21) :
    (immUJField w).getLsbD j = (decide (j ≠ 0) && w.getLsbD (if j < 11 then 21 + (j - 1)
      else if j = 11 then 20 else if j < 20 then j else 31)) := by
  simp only [immUJField, BitVec.getLsbD_or, getLsbD_placeAt, BitVec.getLsbD_extractLsb']
  interval_cases j <;> simp

/-- A sign-extended field, bit by bit: its top bit stands for every bit above it. -/
theorem getLsbD_sext {n : Nat} (v : BitVec n) {j : Nat} (hj : j < 32) :
    (sext v).getLsbD j = v.getLsbD (if j < n then j else n - 1) := by
  rw [sext, BitVec.getLsbD_signExtend, decide_eq_true hj, Bool.true_and]
  split
  · rfl
  · rw [BitVec.msb_eq_getLsbD_last]

theorem getLsbD_immU (w : Word) {j : Nat} (hj : j < 32) :
    (immU w).getLsbD j = w.getLsbD (if j < 20 then 12 + j else 31) := by
  rw [immU, getLsbD_sext _ hj, getLsbD_immUField _ (by split <;> omega)]
  split <;> rfl

/-- Shifted by 12, the bits stand where the word has them. -/
theorem getLsbD_immU_shifted (w : Word) {j : Nat} (hj : j < 32) :
    (immU w <<< 12).getLsbD j = (decide (12 ≤ j) && w.getLsbD j) := by
  rw [BitVec.getLsbD_shiftLeft, decide_eq_true hj, getLsbD_immU w (by omega), if_pos (by omega)]
  by_cases h : 12 ≤ j
  · simp [h, show ¬ j < 12 by omega, show 12 + (j - 12) = j by omega]
  · simp [h, show j < 12 by omega]

theorem getLsbD_immSB (w : Word) {j : Nat} (hj : j < 32) :
    (immSB w).getLsbD j = (decide (j ≠ 0) && w.getLsbD (if j < 5 then 8 + (j - 1)
      else if j < 11 then 25 + (j - 5) else if j = 11 then 7 else 31)) := by
  rw [immSB, getLsbD_sext _ hj, getLsbD_immSBField _ (by split <;> omega)]
  split
  · rfl
  · simp [show j ≠ 0 ∧ ¬ j < 5 ∧ ¬ j < 11 ∧ j ≠ 11 by omega]

theorem getLsbD_immUJ (w : Word) {j : Nat} (hj : j < 32) :
    (immUJ w).getLsbD j = (decide (j ≠ 0) && w.getLsbD (if j < 11 then 21 + (j - 1)
      else if j = 11 then 20 else if j < 20 then j else 31)) := by
  rw [immUJ, getLsbD_sext _ hj, getLsbD_immUJField _ (by split <;> omega)]
  split
  · rfl
  · simp [show j ≠ 0 ∧ ¬ j < 11 ∧ j ≠ 11 ∧ ¬ j < 20 by omega]

/-- A vector whose bit 0 is 0 is even, read as a signed number. -/
theorem toInt_even {n : Nat} (hn : 0 < n) {v : BitVec n} (h : v.getLsbD 0 = false) : v.toInt % 2 = 0 := by
  obtain ⟨k, rfl⟩ := Nat.exists_eq_add_one.2 hn
  have hnat : v.toNat % 2 = 0 := by simpa [BitVec.getLsbD, Nat.testBit_zero] using h
  rw [BitVec.toInt_eq_toNat_cond, pow_succ]
  split <;> omega

theorem toInt_immSB_bounds (w : Word) : -4096 ≤ (immSB w).toInt ∧ (immSB w).toInt ≤ 4094 := by
  rw [immSB, toInt_sext (by decide)]
  have hlow := BitVec.le_toInt (immSBField w)
  have hhigh := BitVec.toInt_lt (x := immSBField w)
  have heven := toInt_even (by decide) (immSBField_even w)
  omega

theorem toInt_immUJ_bounds (w : Word) :
    -1048576 ≤ (immUJ w).toInt ∧ (immUJ w).toInt ≤ 1048574 := by
  rw [immUJ, toInt_sext (by decide)]
  have hlow := BitVec.le_toInt (immUJField w)
  have hhigh := BitVec.toInt_lt (x := immUJField w)
  have heven := toInt_even (by decide) (immUJField_even w)
  omega

/-- An address plus a signed offset, modulo 2^32. -/
theorem toNat_add_toInt (a o : Word) : ((a + o).toNat : Int) = (a.toNat + o.toInt) % 2 ^ 32 := by
  rw [BitVec.toNat_add, Int.natCast_mod, Int.natCast_add, toNat_eq_toInt_emod o]
  norm_cast
  rw [Int.add_emod_emod]

/-- Settles O10: the three generators bit by bit, and the record's immediate through the accepting row. -/
theorem immediatesOfUSBAndUJTypes : Obligations.ImmediatesOfUSBAndUJTypes := by
  refine ⟨fun w j hj => ⟨getLsbD_immU w hj, getLsbD_immU_shifted w hj, getLsbD_immSB w hj,
      getLsbD_immUJ w hj⟩, fun w => ?bounds, fun w pc => ⟨toNat_add_toInt .., toNat_add_toInt ..⟩,
    fun w pc d hd => ?immediate⟩
  case bounds =>
    obtain ⟨hlowSB, hhighSB⟩ := toInt_immSB_bounds w
    exact ⟨hlowSB, hhighSB, toInt_immUJ_bounds w⟩
  case immediate =>
    obtain ⟨r, -, -, rfl⟩ := decodeRecord_row hd
    rfl

/-! ### Words by their fields (R78 to R80) -/

/-- The low two bits of a word are those of its opcode. -/
theorem extractLsb'_opcodeOf (w : Word) : w.extractLsb' 0 2 = (opcodeOf w).extractLsb' 0 2 := by
  refine BitVec.eq_of_getLsbD_eq fun i hi => ?_
  simp only [opcodeOf, BitVec.getLsbD_extractLsb', Nat.zero_add, hi, show i < 7 by omega, decide_true,
    Bool.true_and]

/-- Settles O11: the discriminators of a row fall into none of the classes. -/
theorem otherWordsDoNotDecode : Obligations.OtherWordsDoNotDecode := by
  intro w hclass
  obtain ⟨r, hr, haccepts, -⟩ | ⟨-, hdecode, -⟩ := decode_cases w
  · exfalso
    obtain ⟨hop, h3, h7⟩ := accepts_iff.1 haccepts
    rw [extractLsb'_opcodeOf, hop] at hclass
    fin_cases hr <;> simp [h3, h7] at hclass
  · exact hdecode

/-- Settles O12: the ECALL row requires the opcode and `funct3` only. -/
theorem everyZeroFunct3SystemWordIsEcall : Obligations.EveryZeroFunct3SystemWordIsEcall := by
  intro w hop h3
  refine decode_of_accepts
    (r := ⟨.ecall, .i, 0b1110011#7, some 0b000#3, none, 0x00000073#32, 0x0000707F#32⟩)
    (by decide) (accepts_iff.2 ⟨hop, ?_, ?_⟩)
  · rintro f ⟨⟩; exact h3
  · rintro g ⟨⟩

/-- Settles O1: the table is run on each word. -/
theorem decodeReadsTheSpecsWords : Obligations.DecodeReadsTheSpecsWords := by
  unfold Obligations.DecodeReadsTheSpecsWords
  decide

end Sys2Proof
end

section
/-! PROOFS. Loads and stores (42_loads_stores.md R160 to R170): the effective address, the lanes of the
containing word, and the two data faults. -/

namespace Sys2Proof.Machine

/-! ### Addresses and lanes -/

/-- Settles O16: the sign-extended displacement is the displacement as a number. -/
theorem effectiveAddressWraps : Obligations.EffectiveAddressWraps := by
  intro s rs1 imm
  rw [effAddr, toNat_add_toInt, toInt_sext (by decide)]

theorem readLE_one (m : Memory) (a : Nat) : m.readLE a 1 = (m.read a).setWidth 32 := by
  simp [Memory.readLE]

/-- Settles O55: a byte is a read of width 1, which is one lane. -/
theorem bytesAreLittleEndianLanes : Obligations.BytesAreLittleEndianLanes := by
  intro m a
  rw [← readLE_lanes m a 1 (by omega), readLE_one, BitVec.toNat_setWidth_of_le (by decide)]

theorem zextByte_ofNat (v : Word) : zextByte v = BitVec.ofNat 32 (v.toNat % 2 ^ 8) := by
  apply BitVec.eq_of_toNat_eq
  simp [zextByte, zext]

theorem zextHalf_ofNat (v : Word) : zextHalf v = BitVec.ofNat 32 (v.toNat % 2 ^ 16) := by
  apply BitVec.eq_of_toNat_eq
  simp [zextHalf, zext]

/-- The bytes read inside one word are its lanes, and no more than their width. -/
theorem readLE_lanes_mod (m : Memory) {a n : Nat} (hn : a % 4 + n ≤ 4) :
    (m.readLE a n).toNat % 2 ^ (8 * n) = lanes (m.word (a / 4 * 4)) (a % 4) n := by
  rw [readLE_lanes m a n hn, Nat.mod_eq_of_lt (lanes_lt _ _ n)]

/-! ### Loads -/

/-- The data check passes for an aligned access whose word is in the data segment (20_memory.md R45). -/
theorem dataCheck_passes {s : State} {a : Word} {n : Width} (halign : a.toNat % n.bytes = 0)
    (hin : s.launch.inData (a.toNat / 4 * 4) = true) : dataCheck s a n = .ok () :=
  (dataCheck_eq_ok s a n ()).2 ⟨halign, hin⟩

/-- A load whose check passes completes with the extended bytes in `rd` (R166). -/
theorem load_completes {i : Instr} {s : State} {n : Width} {e : Word → Word} {rd rs1 : Reg}
    {imm : BitVec 12} {v : Word} (hexec : exec i s = load n e rd rs1 imm s)
    (hcheck : dataCheck s (effAddr s rs1 imm) n = .ok ())
    (hv : e (s.mem.readLE (effAddr s rs1 imm).toNat n.bytes) = v) :
    ∃ t, exec i s = .next t ∧ t.pc = s.pc + 4#32 ∧ WritesOnly rd v s t := by
  rw [hexec, load_ok e rd hcheck, hv]
  exact ⟨_, rfl, rfl, writesOnly_setReg s rd v _⟩

/-- Settles O13: each load's check passes, and the bytes read are the lanes of the containing word. -/
theorem loadsReadTheirLanes : Obligations.LoadsReadTheirLanes := by
  intro s rd rs1 imm ea w k
  refine ⟨fun hin => ⟨?lb, ?lbu, fun h2 => ?lh, fun h2 => ?lhu, fun h4 => ?lw⟩,
    encodedBy_of_row .lb (by decide) (by simp [operandsOf, encode]),
    encodedBy_of_row .lh (by decide) (by simp [operandsOf, encode]),
    encodedBy_of_row .lw (by decide) (by simp [operandsOf, encode]),
    encodedBy_of_row .lbu (by decide) (by simp [operandsOf, encode]),
    encodedBy_of_row .lhu (by decide) (by simp [operandsOf, encode])⟩
  case lb =>
    refine load_completes rfl (dataCheck_passes (Nat.mod_one _) hin) ?_
    rw [sextByte_signedFrom, ← readLE_lanes_mod _ (by omega), Width.bytes]
  case lbu =>
    refine load_completes rfl (dataCheck_passes (Nat.mod_one _) hin) ?_
    rw [zextByte_ofNat, ← readLE_lanes_mod _ (by omega), Width.bytes]
  case lh =>
    refine load_completes rfl (dataCheck_passes h2 hin) ?_
    rw [sextHalf_signedFrom, ← readLE_lanes_mod _ (by omega), Width.bytes]
  case lhu =>
    refine load_completes rfl (dataCheck_passes h2 hin) ?_
    rw [zextHalf_ofNat, ← readLE_lanes_mod _ (by omega), Width.bytes]
  case lw =>
    refine load_completes rfl (dataCheck_passes h4 hin) ?_
    show s.mem.word ea.toNat = s.mem.word (ea.toNat / 4 * 4)
    rw [Nat.div_mul_cancel (Nat.dvd_of_mod_eq_zero h4)]

/-! ### Stores -/

/-- The word that contains the first byte of a write: the lanes written hold the value's low bits, every other
bit is kept. -/
theorem getLsbD_word_writeLE (m : Memory) {a n j : Nat} (v : Word) (hj : j < 32) :
    ((m.writeLE a n v).word (a / 4 * 4)).getLsbD j =
      if 8 * (a % 4) ≤ j ∧ j < 8 * (a % 4) + 8 * n then v.getLsbD (j - 8 * (a % 4))
      else (m.word (a / 4 * 4)).getLsbD j := by
  rw [getLsbD_word _ _ _ hj]
  split
  · next hin =>
    rw [show a / 4 * 4 + j / 8 = a + (j / 8 - a % 4) by omega,
      Memory.read_writeLE_inside _ _ _ _ _ (by omega), BitVec.getLsbD_setWidth,
      BitVec.getLsbD_ushiftRight, decide_eq_true (by omega), Bool.true_and]
    congr 1
    omega
  · next hout =>
    rw [Memory.read_writeLE_outside _ _ _ _ _ (by omega), getLsbD_word _ _ _ hj]

/-- A store whose check passes completes, and its lanes alone change (R170). -/
theorem store_completes {i : Instr} {s : State} {n : Width} {rs2 rs1 : Reg} {imm : BitVec 12}
    (hexec : exec i s = store n rs2 rs1 imm s)
    (hcheck : dataCheck s (effAddr s rs1 imm) n = .ok ()) :
    ∃ t, exec i s = .next t ∧ t.pc = s.pc + 4#32 ∧ RegsKept s t ∧ GoesOn s t ∧
      t.printRequests = s.printRequests ∧ MemKeptBut (effAddr s rs1 imm).toNat n.bytes s t ∧
      ∀ j, j < 32 → (t.mem.word ((effAddr s rs1 imm).toNat / 4 * 4)).getLsbD j =
        if 8 * ((effAddr s rs1 imm).toNat % 4) ≤ j ∧
            j < 8 * ((effAddr s rs1 imm).toNat % 4) + 8 * n.bytes then
          (s.reg rs2).getLsbD (j - 8 * ((effAddr s rs1 imm).toNat % 4))
        else (s.mem.word ((effAddr s rs1 imm).toNat / 4 * 4)).getLsbD j := by
  rw [hexec, store_ok rs2 hcheck]
  exact ⟨_, rfl, rfl, fun _ => rfl, ⟨rfl, rfl, rfl⟩, rfl, memKeptBut_writeLE s _ _ _ _,
    fun _ => getLsbD_word_writeLE _ _⟩

/-- Settles O14: each store's check passes, and its bytes are the lanes written. -/
theorem storesWriteTheirLanes : Obligations.StoresWriteTheirLanes := fun s rs2 rs1 imm =>
  ⟨fun hin => ⟨store_completes (n := .byte) rfl (dataCheck_passes (Nat.mod_one _) hin),
      fun h2 => store_completes (n := .half) rfl (dataCheck_passes h2 hin),
      fun h4 => store_completes (n := .word) rfl (dataCheck_passes h4 hin)⟩,
    encodedBy_of_row .sb (by decide) (by simp [operandsOf, encode]),
    encodedBy_of_row .sh (by decide) (by simp [operandsOf, encode]),
    encodedBy_of_row .sw (by decide) (by simp [operandsOf, encode])⟩

/-! ### The two data faults (20_memory.md R45) -/

/-- An instruction that raises a fatal condition stops the engine and keeps the rest. -/
theorem stops_of_raiseFatal {i : Instr} {s : State} {k : FatalKind} (h : exec i s = raiseFatal k s) :
    ∃ t, exec i s = .next t ∧ StopsAs .faulted (.fatal k) s t :=
  ⟨_, h, stopsAs_stopAs s _ _⟩

/-- The loads and the store of a width. -/
def accessesOf (n : Width) (r rs1 : Reg) (imm : BitVec 12) : List Instr :=
  match n with
  | .byte => [.lb r rs1 imm, .lbu r rs1 imm, .sb r rs1 imm]
  | .half => [.lh r rs1 imm, .lhu r rs1 imm, .sh r rs1 imm]
  | .word => [.lw r rs1 imm, .sw r rs1 imm]

/-- An access raises the kind that its data check fails with. -/
theorem exec_access_error {s : State} {n : Width} {r rs1 : Reg} {imm : BitVec 12} {k : FatalKind}
    {i : Instr} (hi : i ∈ accessesOf n r rs1 imm)
    (hcheck : dataCheck s (effAddr s rs1 imm) n = .error k) : exec i s = raiseFatal k s := by
  cases n with
  | byte | half =>
    fin_cases hi
    · exact load_error _ _ hcheck
    · exact load_error _ _ hcheck
    · exact store_error _ hcheck
  | word =>
    fin_cases hi
    · exact load_error _ _ hcheck
    · exact store_error _ hcheck

theorem inData_eq_false {l : Launch} {a : Nat} (h : ¬ (l.dataBase ≤ a ∧ a + 3 < l.dataLimit)) :
    l.inData a = false := by
  simpa only [Launch.inData, ← Bool.decide_and, decide_eq_false_iff_not] using h

/-- Alignment is checked before the range, whatever the access does with the bytes. -/
theorem access_checks {s : State} {n : Width} {r rs1 : Reg} {imm : BitVec 12} {i : Instr}
    (hi : i ∈ accessesOf n r rs1 imm) :
    ((effAddr s rs1 imm).toNat % n.bytes ≠ 0 →
      ∃ t, exec i s = .next t ∧ StopsAs .faulted (.fatal .dataMisaligned) s t) ∧
    ((effAddr s rs1 imm).toNat % n.bytes = 0 →
      ¬ (s.launch.dataBase ≤ (effAddr s rs1 imm).toNat / 4 * 4 ∧
        (effAddr s rs1 imm).toNat / 4 * 4 + 3 < s.launch.dataLimit) →
      ∃ t, exec i s = .next t ∧ StopsAs .faulted (.fatal .dataAccessOutOfRange) s t) :=
  ⟨fun halign => stops_of_raiseFatal (exec_access_error hi (dataCheck_misaligned _ _ _ halign)),
    fun halign hout => stops_of_raiseFatal
      (exec_access_error hi (dataCheck_outOfRange _ _ _ halign (inData_eq_false hout)))⟩

/-- Settles O15: the checks at each width; a byte access is always aligned. -/
theorem dataAccessChecksInOrder : Obligations.DataAccessChecksInOrder := fun _ _ _ _ =>
  ⟨fun _ hi => (access_checks (n := .byte) hi).2 (Nat.mod_one _),
    fun _ hi => access_checks (n := .half) hi, fun _ hi => access_checks (n := .word) hi⟩

end Sys2Proof.Machine
end

section
/-! PROOFS. Jumps and the system instruction (46_jumps.md, 48_system.md), and that every instruction
answers a next state. -/

namespace Sys2Proof.Machine

/-- Settles O28: the link and the target, and an even offset survives the UJ layout. -/
theorem jalLinksAndJumps : Obligations.JalLinksAndJumps := fun s rd o =>
  ⟨⟨_, rfl, writesOnly_setReg s rd _ _, add_sext (by decide) s.pc o⟩,
    fun heven => encodedBy_of_row .jal (by decide)
      (by simp [operandsOf, encode, immUJField_encodeUJ (h := heven)])⟩

/-- Settles O29: JALR raises the fatal condition; its opcode with another `funct3` is one of the classes
that do not decode. -/
theorem jalrIsFatal : Obligations.JalrIsFatal :=
  ⟨fun _ _ _ _ => ⟨stops_of_raiseFatal rfl,
      encodedBy_of_row .jalr (by decide) (by simp [operandsOf, encode])⟩,
    fun w hop h3 => otherWordsDoNotDecode w (by simp [hop, h3])⟩

/-- Settles O31: ECALL's halt. -/
theorem ecallHaltsOnCodesZeroAndTen : Obligations.EcallHaltsOnCodesZeroAndTen :=
  fun s rd rs1 imm hcode => ⟨_, execEcall_halts rd rs1 imm hcode, stopsAs_stopAs s _ _⟩

/-- Settles O32: with code 1 the print is counted, with any other code nothing but `pc` moves. -/
theorem ecallGoesOnOtherwise : Obligations.EcallGoesOnOtherwise := by
  intro s rd rs1 imm h0 h10
  by_cases h1 : s.reg 10#5 = 0x00000001#32
  · exact ⟨_, execEcall_prints rd rs1 imm h1, rfl, fun _ => rfl, fun _ => rfl, ⟨rfl, rfl, rfl⟩,
      by rw [if_pos h1]; rfl⟩
  · exact ⟨_, execEcall_goes_on rd rs1 imm h0 h1 h10, rfl, fun _ => rfl, fun _ => rfl, ⟨rfl, rfl, rfl⟩,
      by rw [if_neg h1]; rfl⟩

/-- Settles O33: every instruction ends in one of the cases of what it can do. -/
theorem everyInstructionAnswersANextState : Obligations.EveryInstructionAnswersANextState := by
  intro i s
  obtain ⟨t, ht, -⟩ := exec_cases i s
  exact ⟨t, ht⟩

end Sys2Proof.Machine
end

section
/-! PROOFS. What each kind of instruction leaves unchanged (41_execution_engine.md R138, R139). -/

namespace Sys2Proof.Machine

/-! ### Register writers -/

/-- What an instruction with destination `rd` can do: write `rd` and move `pc`, or stop. -/
inductive WriterCase (rd : Reg) (s : State) : State → Prop where
  | writes (v p : Word) : WriterCase rd s ((s.setReg rd v).setPc p)
  | stops (k : FatalKind) : WriterCase rd s (s.stopAs .faulted (.fatal k))

section
variable {rd : Reg} {s t : State}

theorem writerCase_writeBack {v : Word} (h : writeBack rd v s = .next t) : WriterCase rd s t := by
  cases h
  exact .writes v _

theorem writerCase_load {n : Width} {e : Word → Word} {rs1 : Reg} {imm : BitVec 12}
    (h : load n e rd rs1 imm s = .next t) : WriterCase rd s t := by
  cases hcheck : dataCheck s (effAddr s rs1 imm) n with
  | ok _ =>
    rw [load_ok e rd hcheck] at h
    exact writerCase_writeBack h
  | error k =>
    rw [load_error e rd hcheck] at h
    cases h
    exact .stops k

theorem writerCase_jal {o : BitVec 21} (h : execJal rd o s = .next t) : WriterCase rd s t := by
  cases h
  exact .writes _ _

theorem writerCase_of_dest {i : Instr} (hdest : Instr.dest i = some rd) (h : exec i s = .next t) :
    WriterCase rd s t := by
  cases i <;> cases hdest
  case lb | lh | lw | lbu | lhu => exact writerCase_load h
  case jal => exact writerCase_jal h
  all_goals exact writerCase_writeBack h

end

/-- Settles O34: a register writer writes `rd` or stops. -/
theorem frameOfRegisterWriters : Obligations.FrameOfRegisterWriters := by
  intro i rd s t hdest hexec
  cases writerCase_of_dest hdest hexec with
  | writes v p =>
    exact ⟨(writesOnly_setReg s rd v p).regs, rfl, fun _ => rfl, rfl, rfl, fun _ _ => rfl⟩
  | stops k =>
    exact ⟨fun _ _ => rfl, rfl, fun _ => rfl, rfl, rfl, fun hrun _ => by cases hrun⟩

/-! ### Stores -/

/-- A store writes its bytes and goes on, or stops. -/
theorem store_next {n : Width} {rs2 rs1 : Reg} {imm : BitVec 12} {s t : State}
    (h : store n rs2 rs1 imm s = .next t) :
    (dataCheck s (effAddr s rs1 imm) n = .ok () ∧
      t = (s.setMem (s.mem.writeLE (effAddr s rs1 imm).toNat n.bytes (s.reg rs2))).setPc (nextPc s)) ∨
      ∃ k, t = s.stopAs .faulted (.fatal k) := by
  cases hcheck : dataCheck s (effAddr s rs1 imm) n with
  | ok _ =>
    rw [store_ok rs2 hcheck] at h
    cases h
    exact .inl ⟨rfl, rfl⟩
  | error k =>
    rw [store_error rs2 hcheck] at h
    cases h
    exact .inr ⟨k, rfl⟩

theorem store_frame {n : Width} {rs2 rs1 : Reg} {imm : BitVec 12} {s t : State}
    (h : store n rs2 rs1 imm s = .next t) :
    RegsKept s t ∧ MemKeptBut (effAddr s rs1 imm).toNat n.bytes s t ∧ t.launch = s.launch ∧
      t.printRequests = s.printRequests := by
  obtain ⟨-, rfl⟩ | ⟨k, rfl⟩ := store_next h
  · exact ⟨fun _ => rfl, memKeptBut_writeLE s _ _ _ _, rfl, rfl⟩
  · exact ⟨fun _ => rfl, fun _ _ => rfl, rfl, rfl⟩

/-- Settles O35: the three stores are `store` at their widths. -/
theorem frameOfStores : Obligations.FrameOfStores := by
  intro s t rs2 rs1 imm i n hin hexec
  simp only [List.mem_cons, Prod.mk.injEq, List.not_mem_nil, or_false] at hin
  obtain ⟨rfl, rfl⟩ | ⟨rfl, rfl⟩ | ⟨rfl, rfl⟩ := hin
  · exact store_frame (n := .byte) hexec
  · exact store_frame (n := .half) hexec
  · exact store_frame (n := .word) hexec

/-! ### Control transfers -/

/-- Each branch is `branch` on the taken table's row of its mnemonic (40_datapath_units.md R121). -/
theorem exec_branch {i : Instr} {rs1 rs2 : Reg} {o : BitVec 13}
    (hi : i ∈ [Instr.beq rs1 rs2 o, .bne rs1 rs2 o, .blt rs1 rs2 o, .bge rs1 rs2 o, .bltu rs1 rs2 o,
      .bgeu rs1 rs2 o]) (s : State) : exec i s = branch (branchTaken i.mnemonic) rs1 rs2 o s := by
  fin_cases hi <;> rfl

theorem execEcall_next {rd rs1 : Reg} {imm : BitVec 12} {s t : State}
    (h : execEcall rd rs1 imm s = .next t) : RegsKept s t ∧ MemKept s t ∧ t.launch = s.launch := by
  simp only [execEcall] at h
  split at h
  · cases h
    exact ⟨fun _ => rfl, fun _ => rfl, rfl⟩
  · split at h <;> (cases h; exact ⟨fun _ => rfl, fun _ => rfl, rfl⟩)

/-- Settles O36: a branch moves only `pc`, JALR stops, and ECALL halts, prints or goes on. -/
theorem frameOfControlTransfers : Obligations.FrameOfControlTransfers := by
  intro i s t hexec
  refine ⟨?branchOrJalr, ?ecall⟩
  case branchOrJalr =>
    rintro (⟨rs1, rs2, o, hi⟩ | ⟨rd, rs1, imm, rfl⟩)
    · rw [exec_branch hi, branch_eq] at hexec
      cases hexec
      exact ⟨fun _ => rfl, fun _ => rfl, rfl, rfl⟩
    · cases hexec
      exact ⟨fun _ => rfl, fun _ => rfl, rfl, rfl⟩
  case ecall =>
    rintro ⟨rd, rs1, imm, rfl⟩
    exact execEcall_next (rd := rd) (rs1 := rs1) (imm := imm) hexec

end Sys2Proof.Machine
end

section
/-! PROOFS. The engine (41_execution_engine.md, 60_exceptions.md, 70_reset_and_hazards.md): what a step
from RUNNING can do, said once, and the statements that follow from it. -/

namespace Sys2Proof.Machine

/-! ### What a step from RUNNING can do -/

/-- Everything a step from RUNNING can do: stop and keep the rest, or go on with at most one register
written, or some data bytes stored, or a print requested. -/
inductive RunningCase (s : State) : State → Prop where
  | fatal (k : FatalKind) (hk : k ≠ .invalidRegisterIndex) : RunningCase s (s.stopAs .faulted (.fatal k))
  | halt (r : HaltReason) : RunningCase s (s.stopAs .halted (.halt r))
  | regs (i : Instr) (rd : Reg) (v p : Word) (hdecode : decode (s.mem.word s.pc.toNat) = .ok i)
      (hp : Instr.target i s p) : RunningCase s ((s.setReg rd v).setPc p)
  | store (a : Word) (n : Width) (v : Word) (hcheck : dataCheck s a n = .ok ()) :
      RunningCase s ((s.setMem (s.mem.writeLE a.toNat n.bytes v)).setPc (nextPc s))
  | print : RunningCase s (s.requestPrint.setPc (nextPc s))

theorem runningCase_of_exec {s t : State} {i : Instr}
    (hdecode : decode (s.mem.word s.pc.toNat) = .ok i) (h : ExecCase i s t) : RunningCase s t := by
  cases h with
  | regs rd v p hp => exact .regs i rd v p hdecode hp
  | store a n v hcheck => exact .store a n v hcheck
  | print => exact .print
  | fatal k hk => exact .fatal k hk
  | halt => exact .halt _

theorem runningCase_of_tick {s t : State} (h : tick s = .next t) : RunningCase s t := by
  obtain ⟨k, hk, rfl⟩ | ⟨r, rfl⟩ | ⟨i, hdecode, hexec⟩ := tick_next h
  · exact .fatal k hk
  · exact .halt r
  · exact runningCase_of_exec hdecode (exec_next hexec)

theorem runningCase_of_step {s t : State} (hrun : s.run = .running) (h : step s = .next t) :
    RunningCase s t := by
  obtain ⟨-, ⟨hreset, -⟩ | ⟨-, htick⟩⟩ := step_next h
  · rw [hrun] at hreset
    cases hreset
  · exact runningCase_of_tick htick

/-- A step from RUNNING either stops or keeps the launch, the run state and the stop reason. -/
theorem RunningCase.stops_or_goesOn {s t : State} (h : RunningCase s t) :
    (∃ k, k ≠ .invalidRegisterIndex ∧ t = s.stopAs .faulted (.fatal k)) ∨
      (∃ r, t = s.stopAs .halted (.halt r)) ∨ GoesOn s t := by
  cases h with
  | fatal k hk => exact .inl ⟨k, hk, rfl⟩
  | halt r => exact .inr (.inl ⟨r, rfl⟩)
  | regs => exact .inr (.inr ⟨rfl, rfl, rfl⟩)
  | store => exact .inr (.inr ⟨rfl, rfl, rfl⟩)
  | print => exact .inr (.inr ⟨rfl, rfl, rfl⟩)

/-! ### How a run ends -/

/-- Settles O40: of the cases, only a fatal stop ends in FAULTED. -/
theorem fatalStopCancelsEveryWrite : Obligations.FatalStopCancelsEveryWrite := by
  intro s t hrun hstep hfaulted
  obtain ⟨k, -, rfl⟩ | ⟨r, rfl⟩ | hgoes := (runningCase_of_step hrun hstep).stops_or_goesOn
  · exact ⟨k, stopsAs_stopAs s _ _⟩
  · cases hfaulted
  · rw [hgoes.run, hrun] at hfaulted
    cases hfaulted

/-- Settles O41: of the cases, only a normal halt ends in HALTED. -/
theorem normalHaltKeepsTheState : Obligations.NormalHaltKeepsTheState := by
  intro s t hrun hstep hhalted
  obtain ⟨k, -, rfl⟩ | ⟨r, rfl⟩ | hgoes := (runningCase_of_step hrun hstep).stops_or_goesOn
  · cases hhalted
  · exact ⟨r, stopsAs_stopAs s _ _⟩
  · rw [hgoes.run, hrun] at hhalted
    cases hhalted

/-- Settles O43: RESET steps to the reset state, RUNNING to a stop or on. -/
theorem runStateTransitions : Obligations.RunStateTransitions := by
  intro s t hstep
  obtain ⟨-, ⟨hreset, rfl⟩ | ⟨hrun, htick⟩⟩ := step_next hstep
  · exact ⟨.inl ⟨hreset, rfl⟩, rfl⟩
  · obtain ⟨k, -, rfl⟩ | ⟨r, rfl⟩ | hgoes := (runningCase_of_tick htick).stops_or_goesOn
    · exact ⟨.inr ⟨hrun, .inr (.inr rfl)⟩, rfl⟩
    · exact ⟨.inr ⟨hrun, .inr (.inl rfl)⟩, rfl⟩
    · exact ⟨.inr ⟨hrun, .inl (hgoes.run.trans hrun)⟩, hgoes.launch⟩

/-- Settles O50: no case raises the kind, and no row of the control table selects the two signals. -/
theorem unreachableFatalCausesNeverArise : Obligations.UnreachableFatalCausesNeverArise := by
  refine ⟨fun s t hstep hs => ?_, fun m => by cases m <;> decide⟩
  obtain ⟨-, ⟨-, rfl⟩ | ⟨-, htick⟩⟩ := step_next hstep
  · simp [State.resetOf]
  · obtain ⟨k, hk, rfl⟩ | ⟨r, rfl⟩ | hgoes := (runningCase_of_tick htick).stops_or_goesOn
    · simpa using hk
    · simp
    · rwa [hgoes.stopReason]

/-- Settles O52: the register a step writes, if it writes one. -/
theorem atMostOneRegisterWrittenPerTick : Obligations.AtMostOneRegisterWrittenPerTick := by
  intro s t hrun hstep
  cases runningCase_of_step hrun hstep with
  | regs i rd v p => exact ⟨rd, (writesOnly_setReg s rd v p).regs⟩
  | fatal | halt | store | print => exact ⟨0#5, fun _ _ => rfl⟩

/-- Settles O53: the two ports at x0, and a write seen from every register. -/
theorem registerZeroIsHardWired : Obligations.RegisterZeroIsHardWired := by
  refine fun s v => ⟨s.setReg_zero v, s.reg_zero, fun r r' => ?_⟩
  by_cases hr : r' = r
  · simp [hr]
  · rw [State.reg_setReg_of_ne s v hr, if_neg hr]
    by_cases h0 : r' = 0#5
    · simp [h0]
    · rw [if_neg h0]

/-! ### Reset and the launch (R29, R300, R302) -/

/-- Settles O42: `cycle` has no tick in either state. -/
theorem terminalStatesHaveNoStep : Obligations.TerminalStatesHaveNoStep := by
  intro s hok
  constructor <;> intro hrun <;> simp [step, cycle, hok, hrun]

/-- Settles O48: `cycle` leaves RESET with the reset values. -/
theorem resetStateStepsToRunning : Obligations.ResetStateStepsToRunning := by
  intro s hok hrun
  simp [step, cycle, hok, hrun]

theorem launch_ok_iff (l : Launch) : l.ok = true ↔
    (l.memBase % 4 = 0 ∧ l.memBase + 4 * l.memWords ≤ 2 ^ 32 ∧ l.dataBase % 4 = 0 ∧
      l.dataLimit % 4 = 0 ∧ l.memBase ≤ l.dataBase ∧ l.dataBase ≤ l.dataLimit ∧
      l.dataLimit ≤ l.memBase + 4 * l.memWords ∧ l.pcReset.toNat % 4 = 0 ∧ l.image.wf = true ∧
      ∀ c ∈ l.image, l.memBase ≤ c.1 ∧ c.1 < l.memBase + 4 * l.memWords) := by
  simp only [Launch.ok, Launch.mappedByte, Bool.and_eq_true, decide_eq_true_eq, List.all_eq_true, and_assoc]

/-- Settles O49: the check is the conjunction, and `cycle` refuses when it fails. -/
theorem launchOutsideTheConstraintsIsRefused : Obligations.LaunchOutsideTheConstraintsIsRefused :=
  ⟨launch_ok_iff, fun s hok => by simp [step, cycle, hok]⟩

theorem reg_resetOf (l : Launch) (r : Reg) :
    (State.resetOf l).reg r = if r = 2#5 then l.spReset else 0#32 := by
  by_cases h0 : r = 0#5
  · rw [h0]
    rfl
  · rw [State.reg_of_ne_zero _ h0]
    simp [State.resetOf, resetRegs, Vector.getElem_set, BitVec.toNat_eq, eq_comm]

/-- Settles O47: register by register, the other fields as they are set. -/
theorem resetValues : Obligations.ResetValues := fun l =>
  ⟨by simp [reg_resetOf], fun r hr => by simp [reg_resetOf, hr], rfl, fun _ => rfl, rfl, rfl, rfl⟩

theorem zeroCell_resetRegs (v : Word) : (resetRegs v)[0] = 0#32 := by
  simp [resetRegs]

theorem inv_resetOf {l : Launch} (hok : l.ok = true) : (State.resetOf l).Inv := by
  obtain ⟨-, -, -, -, hpc, hwf, hmapped⟩ := launch_ok_bounds hok
  exact ⟨zeroCell_resetRegs l.spReset, hwf, hmapped, by simp only [State.resetOf]; omega, rfl⟩

/-- Settles O46: the constraints of the launch are what the invariant asks of its reset state. -/
theorem resetHasTheInvariant : Obligations.ResetHasTheInvariant :=
  ⟨fun _ => inv_resetOf, inv_resetOf (by decide)⟩

/-! ### The invariant -/

section
variable {s : State}

theorem State.Inv.stopAs {r : RunState} {reason : StopReason} (hinv : s.Inv)
    (hfits : stopReasonFits r (some reason) = true) : (s.stopAs r reason).Inv :=
  ⟨hinv.zeroCell, hinv.memCanonical, hinv.memMapped, hinv.pcEven, hfits⟩

theorem State.Inv.setReg (hinv : s.Inv) (rd : Reg) (v : Word) : (s.setReg rd v).Inv :=
  ⟨s.zeroCell_setReg rd v hinv.zeroCell, hinv.memCanonical, hinv.memMapped, hinv.pcEven,
    hinv.reasonFits⟩

theorem State.Inv.requestPrint (hinv : s.Inv) : s.requestPrint.Inv :=
  ⟨hinv.zeroCell, hinv.memCanonical, hinv.memMapped, hinv.pcEven, hinv.reasonFits⟩

theorem State.Inv.setPc (hinv : s.Inv) {p : Word} (hp : p.toNat % 2 = 0) : (s.setPc p).Inv :=
  ⟨hinv.zeroCell, hinv.memCanonical, hinv.memMapped, hp, hinv.reasonFits⟩

/-- A checked store stays inside the mapped region, since the data segment lies in it (R8). -/
theorem State.Inv.setMem_writeLE (hinv : s.Inv) (hok : s.launch.ok = true) {a : Word} {n : Width}
    (hcheck : dataCheck s a n = .ok ()) (v : Word) :
    (s.setMem (s.mem.writeLE a.toNat n.bytes v)).Inv := by
  obtain ⟨hbase, hlimit, -⟩ := launch_ok_bounds hok
  obtain ⟨halign, hlow, hhigh⟩ := dataCheck_ok_bounds hcheck
  obtain ⟨hfirst, hlast⟩ := inside_word a n halign
  refine ⟨hinv.zeroCell, Memory.writeLE_wf _ _ _ _ hinv.memCanonical, ?_, hinv.pcEven, hinv.reasonFits⟩
  refine Memory.all_writeLE s.mem s.launch.mappedByte _ _ _ (fun x hx hx' => ?_) hinv.memMapped
  simp only [wordAddr] at hfirst hlast
  simp only [Launch.mappedByte, Bool.and_eq_true, decide_eq_true_eq]
  omega

/-- The sum of an even address and an even offset is even: the wrap at 2^32 keeps bit 0. -/
theorem add_even {p o : Word} (hp : p.toNat % 2 = 0) (ho : o.toNat % 2 = 0) : (p + o).toNat % 2 = 0 := by
  rw [BitVec.toNat_add]
  omega

theorem nextPc_even (hinv : s.Inv) : (nextPc s).toNat % 2 = 0 :=
  add_even hinv.pcEven (by decide)

theorem target_even (hinv : s.Inv) {i : Instr} (hwf : i.wf = true) {p : Word}
    (hp : Instr.target i s p) : p.toNat % 2 = 0 := by
  obtain rfl | ⟨o, rfl, ho⟩ := hp
  · exact nextPc_even hinv
  · exact add_even hinv.pcEven (by simpa [BitVec.getLsbD, Nat.testBit_zero] using ho hwf)

end

/-- Settles O44: case by case of what a step can do; a decoded instruction is well-formed, so its target
is even. -/
theorem stepKeepsTheInvariant : Obligations.StepKeepsTheInvariant := by
  intro s t hinv hstep
  obtain ⟨hok, ⟨-, rfl⟩ | ⟨-, htick⟩⟩ := step_next hstep
  · exact inv_resetOf hok
  · cases runningCase_of_tick htick with
    | fatal k hk => exact hinv.stopAs (by simpa [stopReasonFits] using hk)
    | halt r => exact hinv.stopAs rfl
    | regs i rd v p hdecode hp =>
      exact (hinv.setReg rd v).setPc (target_even hinv (encodeOfDecodeIsTheWord _ i hdecode).1 hp)
    | store a n v hcheck => exact (hinv.setMem_writeLE hok hcheck v).setPc (nextPc_even hinv)
    | print => exact hinv.requestPrint.setPc (nextPc_even hinv)

/-- The pairs of run state and stop reason that fit (R28). -/
theorem stopReasonFits_cases {r : RunState} {o : Option StopReason} (h : stopReasonFits r o = true) :
    ((r = .reset ∨ r = .running) ∧ o = none) ∨ (r = .halted ∧ ∃ reason, o = some (.halt reason)) ∨
      (r = .faulted ∧ ∃ k, o = some (.fatal k)) := by
  unfold stopReasonFits at h
  split at h
  · exact .inl ⟨.inl rfl, rfl⟩
  · exact .inl ⟨.inr rfl, rfl⟩
  · exact .inr (.inl ⟨rfl, _, rfl⟩)
  · exact .inr (.inr ⟨rfl, _, rfl⟩)
  · cases h

/-- Settles O45: the signal of each run state, and the stop reasons that fit it. -/
theorem terminationSignalTellsTheStop : Obligations.TerminationSignalTellsTheStop := by
  intro s hinv
  obtain ⟨hrun | hrun, hreason⟩ | ⟨hrun, r, hreason⟩ | ⟨hrun, k, hreason⟩ :=
      stopReasonFits_cases hinv.reasonFits <;>
    simp [State.termination, hrun, hreason]

end Sys2Proof.Machine
end

section
/-! PROOFS. Fetch and the stop checks (41_execution_engine.md R132, R133), and memory between steps
(20_memory.md R45 to R53). -/

namespace Sys2Proof.Machine

/-! ### Fetch at `pc` (R44) -/

section
variable {s : State}

theorem mapped_iff {l : Launch} {a : Nat} :
    l.mapped a = true ↔ l.memBase ≤ a ∧ a + 3 < l.memBase + 4 * l.memWords := by
  simp only [Launch.mapped, Bool.and_eq_true, decide_eq_true_eq]

theorem fetch_ok {w : Word} (halign : s.pc.toNat % 4 = 0) (hmapped : s.launch.mapped s.pc.toNat = true)
    (hw : s.mem.word s.pc.toNat = w) : fetch s s.pc = .ok w :=
  (fetch_eq_ok s s.pc w).2 ⟨halign, hmapped, hw.symm⟩

theorem fetch_misaligned (h : s.pc.toNat % 4 ≠ 0) : fetch s s.pc = .error .fetchMisaligned := if_pos h

theorem fetch_outOfRange (halign : s.pc.toNat % 4 = 0) (h : ¬ s.launch.mapped s.pc.toNat = true) :
    fetch s s.pc = .error .fetchOutOfRange := by
  simp [fetch, halign, h]

theorem step_stops {r : RunState} {reason : StopReason} (hok : s.launch.ok = true)
    (hrun : s.run = .running) (htick : tick s = .next (s.stopAs r reason)) :
    ∃ t, step s = .next t ∧ StopsAs r reason s t :=
  ⟨_, (step_running hok hrun).trans htick, stopsAs_stopAs s r reason⟩

end

/-! ### The word that runs next -/

/-- Settles O37: the stop checks pass, so the tick is the decoded instruction. -/
theorem stepRunsTheDecodedInstruction : Obligations.StepRunsTheDecodedInstruction := by
  intro s i hok hrun hbound halign hmapped hdecode
  rw [step_running hok hrun]
  exact tick_runs hbound (fetch_ok halign hmapped rfl) hdecode

/-- The word at the address of a 4-byte write is the word written. -/
theorem word_writeLE (m : Memory) (a : Nat) (v : Word) : (m.writeLE a 4 v).word a = v := by
  rw [Memory.word, Memory.readLE_writeLE _ _ _ _ (by decide)]
  simp

theorem decode_tableWord {nbits w : Nat} {i : Instr} (h : decodeTableWord nbits w = some i) :
    decode (tableWord nbits w) = .ok i := by
  rw [decodeTableWord] at h
  cases hdecode : decode (tableWord nbits w) with
  | ok j => rw [hdecode] at h; cases h; rfl
  | error e => rw [hdecode] at h; cases h

/-- Settles O38: the word placed is the one at `pc`, and placing it writes its four bytes. -/
theorem placedWordIsRunNext : Obligations.PlacedWordIsRunNext := by
  intro s nbits w i p hok hrun hbound halign hmapped hdecode
  refine ⟨?_, rfl, fun _ => rfl, memKeptBut_writeLE s _ _ _ s.pc, ⟨rfl, rfl, rfl⟩, rfl⟩
  refine stepRunsTheDecodedInstruction p i hok hrun hbound halign hmapped ?_
  exact (congrArg decode (word_writeLE ..)).trans (decode_tableWord hdecode)

/-! ### The stop checks in their order -/

/-- Settles O39: each check in the order of `issue`, the ones before it passed. -/
theorem stopChecksInOrder : Obligations.StopChecksInOrder := by
  intro s hok hrun pc l mapped stops
  refine ⟨fun habove => ?above, fun hbound halign => ?misaligned, fun hbound halign hmapped => ?unmapped,
    fun hbound halign hmapped hzero => ?sentinel,
    fun hbound halign hmapped hnonzero hdecode => ?undecoded⟩
  case above => exact step_stops hok hrun (tick_above habove)
  case misaligned => exact step_stops hok hrun (tick_fetch_error hbound (fetch_misaligned halign))
  case unmapped =>
    exact step_stops hok hrun
      (tick_fetch_error hbound (fetch_outOfRange halign (fun h => hmapped (mapped_iff.1 h))))
  case sentinel =>
    exact step_stops hok hrun (tick_sentinel hbound (fetch_ok halign (mapped_iff.2 hmapped) hzero))
  case undecoded =>
    exact step_stops hok hrun
      (tick_undecoded hbound (fetch_ok halign (mapped_iff.2 hmapped) rfl) hnonzero hdecode)

/-! ### Memory (20_memory.md) -/

/-- A passed write is the write of the value's low bytes. -/
theorem memWrite_eq_ok {s : State} {a : Word} {n : Width} {v : Word} {m : Memory}
    (h : memWrite s a n v = .ok m) :
    dataCheck s a n = .ok () ∧ m = s.mem.writeLE a.toNat n.bytes v := by
  cases hcheck : dataCheck s a n with
  | ok _ =>
    rw [memWrite_ok v hcheck] at h
    cases h
    exact ⟨rfl, rfl⟩
  | error k =>
    rw [memWrite_error v hcheck] at h
    cases h

/-- The data check looks at the launch only. -/
theorem dataCheck_setMem (s : State) (m : Memory) (a : Word) (n : Width) :
    dataCheck (s.setMem m) a n = dataCheck s a n := rfl

/-- Reads of the same bytes answer the same, fatal outcomes included. -/
theorem memRead_setMem_congr {s : State} {m : Memory} {b : Word} {k : Width}
    (h : m.readLE b.toNat k.bytes = s.mem.readLE b.toNat k.bytes) :
    memRead (s.setMem m) b k = memRead s b k := by
  rw [memRead, memRead, dataCheck_setMem, State.setMem_mem, h]

/-- Settles O56: the bytes written are the value's low ones, and a read depends on its own bytes only. -/
theorem readAfterWrite : Obligations.ReadAfterWrite := by
  intro s a n v m hwrite
  obtain ⟨hcheck, rfl⟩ := memWrite_eq_ok hwrite
  refine ⟨?same, fun b k hdisjoint => ?other⟩
  case same =>
    rw [memRead_ok ((dataCheck_setMem ..).trans hcheck), State.setMem_mem,
      Memory.readLE_writeLE _ _ _ _ (by cases n <;> decide)]
    congr 1
    apply BitVec.eq_of_toNat_eq
    simp
  case other =>
    refine memRead_setMem_congr (Memory.readLE_congr _ _ fun x hx hx' => ?_)
    exact Memory.read_writeLE_outside _ _ _ _ _ (by omega)

/-- Settles O57: the store's check puts its word in the mapped region, so the next step fetches it. -/
theorem storedWordIsFetchedNext : Obligations.StoredWordIsFetchedNext := by
  intro s t rs2 rs1 imm i hok hrun hexec hgoes hpc hbound hdecode
  obtain ⟨hcheck, rfl⟩ | ⟨k, rfl⟩ := store_next (n := .word) hexec
  · obtain ⟨halign, hlow, hhigh⟩ := dataCheck_ok_bounds hcheck
    obtain ⟨hbase, hlimit, -⟩ := launch_ok_bounds hok
    have hpc : nextPc s = effAddr s rs1 imm := hpc
    refine stepRunsTheDecodedInstruction _ i hok hrun hbound ?aligned ?mapped ?decodes <;>
      simp only [State.setPc_pc, State.setPc_mem, State.setPc_launch, State.setMem_mem,
        State.setMem_launch, hpc]
    case aligned => exact halign
    case mapped =>
      rw [mapped_iff]
      simp only [Width.bytes] at halign
      omega
    case decodes => rwa [Width.bytes, word_writeLE]
  · cases hgoes

/-- Settles O58: of the cases, only a checked store changes memory, inside the data segment. -/
theorem bytesOutsideTheDataSegmentNeverChange : Obligations.BytesOutsideTheDataSegmentNeverChange := by
  intro s t hrun hstep a hout
  cases runningCase_of_step hrun hstep with
  | store b n v hcheck =>
    obtain ⟨halign, hlow, hhigh⟩ := dataCheck_ok_bounds hcheck
    obtain ⟨hfirst, hlast⟩ := inside_word b n halign
    simp only [wordAddr] at hfirst hlast
    exact memKeptBut_writeLE s _ _ _ _ a (by omega)
  | fatal | halt | regs | print => rfl

end Sys2Proof.Machine
end

section
/-! PROOFS. The datapath (40_datapath_units.md R100 to R122, 41_execution_engine.md R134 to R140): the
tick through its units is the tick of the closed forms, family by family. -/

namespace Sys2Proof.Machine

section
variable {d : Record} {s : State}

/-- The first ALU operand (R101). -/
def selectOp1 (sel : Op1Select) (d : Record) (s : State) : Word :=
  match sel with
  | .rs1 => sourceValue s d.rs1
  | .pc => s.pc
  | .zero => 0#32

/-- The second ALU operand (R101). -/
def selectOp2 (sel : Op2Select) (d : Record) (s : State) : Word :=
  match sel with
  | .rs2 => sourceValue s d.rs2
  | .imm => immOperand d

/-- Phase H and the commit treat ECALL apart; its control vector tells it from every other mnemonic. -/
theorem not_ecall_of_signals {m : Mnemonic} (h : signalsFor m ≠ signalsFor .ecall) : m ≠ .ecall :=
  fun e => h (by rw [e])

theorem datapathExecute_writeBack {o1 : Op1Select} {o2 : Op2Select} {f : AluFn} {rd : Reg}
    (hsignals : signalsFor d.mnemonic = ⟨o1, o2, f, .seq, .none, true, .alu⟩)
    (hrd : d.rd = some rd) :
    datapathExecute d s = writeBack rd (alu f (selectOp1 o1 d s) (selectOp2 o2 d s)) s := by
  have hne : d.mnemonic ≠ .ecall := not_ecall_of_signals (by rw [hsignals]; simp [signalsFor])
  simp only [datapathExecute, hsignals, resolveNextPc, memoryPort, writebackValue, hne, hrd, false_and,
    if_false]
  rfl

theorem datapathExecute_load {n : Width} {e : Word → Word} {mode : MemMode} {rd rs1 : Reg}
    {imm : BitVec 12}
    (hsignals : signalsFor d.mnemonic = ⟨.rs1, .imm, .add, .seq, mode, true, .mem⟩)
    (hport : ∀ ea v, memoryPort mode ea v s = (memRead s ea n).map (fun v => (e v, s.mem)))
    (hrd : d.rd = some rd) (hrs1 : d.rs1 = some rs1)
    (himm : immOperand d = sext imm) :
    datapathExecute d s = load n e rd rs1 imm s := by
  have hne : d.mnemonic ≠ .ecall := not_ecall_of_signals (by rw [hsignals]; simp [signalsFor])
  simp only [datapathExecute, hsignals, resolveNextPc, hport, writebackValue, hne, hrd, false_and,
    if_false, hrs1, sourceValue, himm, load, alu, effAddr]
  cases memRead s (s.reg rs1 + sext imm) n <;> rfl

theorem datapathExecute_store {n : Width} {mode : MemMode} {rs2 rs1 : Reg} {imm : BitVec 12}
    (hsignals : signalsFor d.mnemonic = ⟨.rs1, .imm, .add, .seq, mode, false, .alu⟩)
    (hport : ∀ ea v, memoryPort mode ea v s = (memWrite s ea n v).map (fun m => (0#32, m)))
    (hrs1 : d.rs1 = some rs1) (hrs2 : d.rs2 = some rs2)
    (himm : immOperand d = sext imm) :
    datapathExecute d s = store n rs2 rs1 imm s := by
  have hne : d.mnemonic ≠ .ecall := not_ecall_of_signals (by rw [hsignals]; simp [signalsFor])
  simp only [datapathExecute, hsignals, resolveNextPc, hport, writebackValue, hne, false_and,
    if_false, hrs1, hrs2, sourceValue, himm, store, alu, effAddr]
  cases memWrite s (s.reg rs1 + sext imm) n (s.reg rs2) <;> rfl

theorem datapathExecute_branch {rs1 rs2 : Reg} {o : BitVec 13}
    (hsignals : signalsFor d.mnemonic = ⟨.rs1, .rs2, .sub, .branch, .none, false, .alu⟩)
    (hrs1 : d.rs1 = some rs1) (hrs2 : d.rs2 = some rs2)
    (hoffset : immSB d.raw = sext o) :
    datapathExecute d s = branch (branchTaken d.mnemonic) rs1 rs2 o s := by
  have hne : d.mnemonic ≠ .ecall := not_ecall_of_signals (by rw [hsignals]; simp [signalsFor])
  simp only [datapathExecute, hsignals, resolveNextPc, memoryPort, writebackValue, hne, false_and,
    if_false, hrs1, hrs2, sourceValue, branch_eq, brTarget, hoffset, branchTarget]
  rfl

theorem datapathExecute_ecall (rd rs1 : Reg) (imm : BitVec 12) (hm : d.mnemonic = .ecall) :
    datapathExecute d s = execEcall rd rs1 imm s := by
  simp only [datapathExecute, hm, signalsFor, resolveNextPc, memoryPort, writebackValue, true_and,
    execEcall]
  split
  · rfl
  · split <;> rfl

end

/-- A shift looks at the amount alone, which the whole I-type immediate holds in its low five bits (R69). -/
theorem alu_shift_immI {f : AluFn} (hf : f ∈ [AluFn.sll, .srl, .sra]) (x w : Word) :
    alu f x (immI w) = alu f x (zext (shamtOf w)) := by
  fin_cases hf <;> simp only [alu, shiftAmount_immI]

/-- The units give a decoded word the meaning of its instruction (R140). -/
theorem datapathExecute_record (r : TableRow) (w : Word) (s : State) :
    datapathExecute (r.record w s.pc) s = exec (operandsOf r.mnemonic w) s := by
  obtain ⟨m, t, op, f3, f7, mw, mk⟩ := r
  cases m
  case lb | lh | lw | lbu | lhu => exact datapathExecute_load rfl (fun _ _ => rfl) rfl rfl rfl
  case sb | sh | sw => exact datapathExecute_store rfl (fun _ _ => rfl) rfl rfl rfl
  case beq | bne | blt | bge | bltu | bgeu =>
    exact Eq.trans (datapathExecute_branch rfl rfl rfl rfl) rfl
  case jal => rfl
  case jalr => rfl
  case ecall => exact datapathExecute_ecall (rdOf w) (rs1Of w) (immIField w) rfl
  case slli | srli | srai =>
    exact Eq.trans (datapathExecute_writeBack rfl rfl)
      (congrArg (writeBack (rdOf w) · s) (alu_shift_immI (by decide) _ w))
  case lui =>
    exact Eq.trans (datapathExecute_writeBack rfl rfl)
      (congrArg (writeBack (rdOf w) · s) (BitVec.zero_add _))
  all_goals exact Eq.trans (datapathExecute_writeBack rfl rfl) rfl

/-- Settles O51: the two ticks make the same checks, and a word decodes to an instruction and to its
record by the same row. -/
theorem datapathTickIsTheTick : Obligations.DatapathTickIsTheTick := by
  intro s
  rw [datapathTick, tick, issue]
  split
  · rfl
  · cases fetch s s.pc with
    | error k => rfl
    | ok w =>
      simp only
      split
      · rfl
      · obtain ⟨r, -, -, hdecode, hrecord⟩ | ⟨-, hdecode, hrecord⟩ := decode_cases w
        · rw [hdecode, hrecord]
          exact datapathExecute_record r w s
        · rw [hdecode, hrecord]

/-! ### Where `pc` goes (R135) -/

/-- A commit leaves `pc` at the resolved next PC, which the stops do not reach. -/
theorem datapathExecute_pc {d : Record} {s t : State} (h : datapathExecute d s = .next t)
    (hrun : t.run = .running) :
    resolveNextPc (signalsFor d.mnemonic) d
      (branchTaken d.mnemonic (relations (sourceValue s d.rs1) (sourceValue s d.rs2))) s = .ok t.pc := by
  simp only [datapathExecute] at h
  split at h
  · cases h; cases hrun
  · next p hp =>
    rw [hp]
    split at h
    · cases h; cases hrun
    · split at h
      · cases h; cases hrun
      · split at h
        · cases h; cases hrun
        · cases h
          rfl

/-- The path that each row selects for `pc`, by the row's opcode (R110, R115). -/
theorem table_pcSelect : ∀ r ∈ instructionTable,
    ((signalsFor r.mnemonic).pcSelect = .branch → r.opcode = 0b1100011#7) ∧
      ((signalsFor r.mnemonic).pcSelect = .jump → r.opcode = 0b1101111#7) := by
  decide

theorem resolveNextPc_cases {cv : ControlVector} {d : Record} {taken : Bool} {s : State} {p : Word}
    (h : resolveNextPc cv d taken s = .ok p) :
    p = nextPc s ∨ (cv.pcSelect = .branch ∧ p = brTarget d.raw s.pc) ∨
      (cv.pcSelect = .jump ∧ p = jmpTarget d.raw s.pc) := by
  rw [resolveNextPc] at h
  split at h
  · cases h
    exact .inl rfl
  · next hsel =>
    cases h
    cases taken
    · exact .inl rfl
    · exact .inr (.inl ⟨hsel, rfl⟩)
  · next hsel =>
    cases h
    exact .inr (.inr ⟨hsel, rfl⟩)
  all_goals cases h

/-- Settles O54: the path the control table selects for the accepted row, taken through the datapath. -/
theorem nextPcIsSequentialOrATarget : Obligations.NextPcIsSequentialOrATarget := by
  intro s t hrun hstep hgoes w
  obtain ⟨-, ⟨hreset, -⟩ | ⟨-, htick⟩⟩ := step_next hstep
  · rw [hrun] at hreset
    cases hreset
  obtain ⟨k, -, rfl⟩ | ⟨r, rfl⟩ | ⟨i, hdecode, hexec⟩ := tick_next htick
  · cases hgoes
  · cases hgoes
  · obtain ⟨r, hr, haccepts, rfl⟩ := decode_row hdecode
    rw [← datapathExecute_record] at hexec
    obtain ⟨hbranch, hjump⟩ := table_pcSelect r hr
    have hop : opcodeOf w = r.opcode := (accepts_iff.1 haccepts).1
    rw [hop]
    obtain h | ⟨hsel, h⟩ | ⟨hsel, h⟩ := resolveNextPc_cases (datapathExecute_pc hexec hgoes)
    · exact .inl h
    · exact .inr (.inl ⟨hbranch hsel, h⟩)
    · exact .inr (.inr ⟨hjump hsel, h⟩)

end Sys2Proof.Machine
end
